-- ==== Sys2Proof/Word.lean ====
section
/-! DEFINITION. The word types of the RDOS block: the widths of 00_scope.md R8 and R9. -/

namespace Sys2Proof

/-- One element of the byte stream, BYTE_W = 8 bits (00_scope.md R8). -/
abbrev Byte := BitVec 8

/-- One half of a two-byte record's value, HALF_W = 6 bits (00_scope.md R8). -/
abbrev Half := BitVec 6

/-- A target address, a table index or a DataWrite value: ADDR_W = VALUE_W = 12 bits (00_scope.md R8). -/
abbrev Addr := BitVec 12

/-- The address cursor, CUR_W = 13 bits (00_scope.md R9). -/
abbrev Cursor := BitVec 13

/-- A status register or the fault information, 16 bits (10_state.md R41, R43). -/
abbrev Word16 := BitVec 16

end Sys2Proof
end

