-- ==== Sys2Proof/Config.lean ====
section
/-! DEFINITION. What the host and the implementation fix for a run: the checksummed-mode input and the two width
parameters. They stand in State as plain data that no operation writes, so that a statement about every state is a
statement about every width and both modes (notes/assumptions/1.md, 2.md). -/

namespace Sys2Proof

/-- The launch configuration (10_state.md R42; 00_scope.md R10, R11). -/
structure Config where
  /-- cfg_ck, the checksummed-mode input: the spec gives it no reset value (10_state.md R42). -/
  ck : Bool
  /-- LCW, the width of the leader-run counter (00_scope.md R11). -/
  lcw : Nat
  /-- UCW, the width of one usage counter, signed (00_scope.md R10). -/
  ucw : Nat
deriving DecidableEq, Repr

/-- The parameter ranges the spec admits: LCW at least 1 and UCW at least 3 (00_scope.md R10, R11). -/
abbrev Config.wf (c : Config) : Prop := 1 ≤ c.lcw ∧ 3 ≤ c.ucw

/-- The spec's default widths, 32 and 32 (00_scope.md R10, R11), with cfg_ck off.
DESIGN CHOICE for cfg_ck, unsafe: notes/assumptions/2.md. -/
def Config.initial : Config := { ck := false, lcw := 32, ucw := 32 }

end Sys2Proof
end

