-- ==== Sys2Proof/Syntax.lean ====
section
/-! DEFINITION. The syntax: the requests a host can make of the block's ports, the two modes that say what a byte is,
the instructions (one constructor per row of spec/opcode_table.json) and the records of the wire format. -/

namespace Sys2Proof

/-- PHASE (10_state.md R31). Its 2-bit code is `Machine.Phase.code`; the value 3 is never held. -/
inductive Phase where
  /-- bytes are accepted -/
  | decode
  /-- the stream has ended and SCAN is allowed -/
  | done
  /-- a fault has been taken -/
  | fault
deriving DecidableEq, Repr

/-- DSTATE (10_state.md R32). Its 2-bit code is `Machine.DState.code`; the value 3 is never held. -/
inductive DState where
  /-- at a record boundary -/
  | idle
  /-- the b1 of an AddressSet has been taken -/
  | waitAddr
  /-- the b1 of a DataWrite has been taken -/
  | waitData
deriving DecidableEq, Repr

/-- One thing the host asks of the block's ports (30_encoding.md R100, R101). -/
inductive Request where
  /-- an operation code on op[1:0], with the byte on in_byte[7:0] -/
  | op (code : BitVec 2) (inByte : Byte)
  /-- rst asserted -/
  | rst
  /-- the read port COUNT(a) -/
  | count (a : Addr)
  /-- the read port CELL(a) -/
  | cell (a : Addr)
  /-- the read port PAIR(j) -/
  | pair (j : BitVec 11)
  /-- the read port REG(n) -/
  | reg (n : BitVec 2)
deriving DecidableEq, Repr

/-- The instructions: one constructor per row of spec/opcode_table.json, in the table's order. Don't-care bits are kept
as operands, so that no bit of a byte is lost (30_encoding.md R91, R100, R101). -/
inductive Instr where
  /-- LEADER, `10000000` -/
  | leader
  /-- FIELD, `11fffxxx` -/
  | field (f x : BitVec 3)
  /-- INVALID, `10nnnnnn` with n nonzero -/
  | invalid (n : Half)
  /-- ADDR, first byte `01hhhhhh` -/
  | addr (h : Half)
  /-- ADDR.b2, continuation byte `ttllllll` in WAIT_ADDR -/
  | addrB2 (t : BitVec 2) (l : Half)
  /-- DATA, first byte `00hhhhhh` -/
  | data (h : Half)
  /-- DATA.b2, continuation byte `ttllllll` in WAIT_DATA -/
  | dataB2 (t : BitVec 2) (l : Half)
  /-- BYTE, op 0b00 -/
  | byte (b : Byte)
  /-- END, op 0b01 -/
  | endOp
  /-- SCAN, op 0b10 -/
  | scan
  /-- RESERVED_OP, op 0b11 -/
  | reservedOp
  /-- RESET, rst -/
  | reset
  /-- COUNT(a) -/
  | count (a : Addr)
  /-- CELL(a) -/
  | cell (a : Addr)
  /-- PAIR(j) -/
  | pair (j : BitVec 11)
  /-- REG(n) -/
  | reg (n : BitVec 2)
deriving DecidableEq, Repr

/-- A record of the wire format (00_scope.md R14 "Record"; 30_encoding.md R99). -/
inductive Record where
  /-- one leader byte -/
  | leader
  /-- FieldSet f -/
  | fieldSet (f : BitVec 3)
  /-- Invalid n -/
  | invalid (n : Half)
  /-- AddressSet a -/
  | addressSet (a : Addr)
  /-- DataWrite v -/
  | dataWrite (v : Addr)
deriving DecidableEq, Repr

/-- Why a byte list holds no whole record (30_encoding.md R90: length is decided by b1 alone). -/
inductive StreamError where
  /-- there is no first byte: the stream is exhausted at a record boundary -/
  | exhausted
  /-- a two-byte record lacks its continuation byte (60_exceptions.md R201) -/
  | truncated
deriving DecidableEq, Repr

end Sys2Proof
end

