-- ==== Sys2Proof/Machine/Operands.lean ====
section
/-! DEFINITION. Operand forms: the fields of a byte, the assembly of a 12-bit value, the saturating counts and the
16-bit fault information (30_encoding.md R93, R94; 00_scope.md R13; 60_exceptions.md R200). -/

namespace Sys2Proof.Machine

/-- The tag of a byte, b[7:6] (00_scope.md R14 "Tag"). -/
def byteTag (b : Byte) : BitVec 2 := b.extractLsb' 6 2

/-- The half a byte carries, b[5:0] (00_scope.md R14 "High half, low half"). -/
def byteHalf (b : Byte) : Half := b.extractLsb' 0 6

/-- The field of a FieldSet byte, b[5:3] (30_encoding.md R93). -/
def byteField (b : Byte) : BitVec 3 := b.extractLsb' 3 3

/-- The ignored bits of a FieldSet byte, b[2:0] (30_encoding.md R93). -/
def byteRest (b : Byte) : BitVec 3 := b.extractLsb' 0 3

/-- A byte from its tag and its half. -/
def tagged (t : BitVec 2) (h : Half) : Byte := t ++ h

/-- The 12-bit value of a two-byte record, high half first (30_encoding.md R94; 20_memory.md R63). -/
def join (hi lo : Half) : Addr := hi ++ lo

/-- The high half of a 12-bit value, v[11:6] (30_encoding.md R99). -/
def highHalf (v : Addr) : Half := v.extractLsb' 6 6

/-- The low half of a 12-bit value, v[5:0] (30_encoding.md R99). -/
def lowHalf (v : Addr) : Half := v.extractLsb' 0 6

/-- LCNT_MAX = 2^LCW - 1 (00_scope.md R11). -/
def lcntMax (c : Config) : Nat := 2 ^ c.lcw - 1

/-- UCW_MAX = 2^(UCW-1) - 1 (00_scope.md R10). -/
def ucwMax (c : Config) : Int := 2 ^ (c.ucw - 1) - 1

/-- sat_inc on the leader-run counter: v + 1 below the maximum, else v (00_scope.md R13). -/
def satIncLcw (c : Config) (v : Nat) : Nat := if v < lcntMax c then v + 1 else v

/-- sat_inc on a usage counter: v + 1 below the maximum, else v (00_scope.md R13). -/
def satIncUcw (c : Config) (v : Int) : Int := if v < ucwMax c then v + 1 else v

/-- The low 12 bits of the cursor, CUR[11:0] (40_record_decoder.md R128). -/
def cursorAddr (c : Cursor) : Addr := c.extractLsb' 0 12

/-- The 2-bit code of PHASE (10_state.md R31). -/
def phaseCode : Phase → BitVec 2
  | .decode => 0#2
  | .done => 1#2
  | .fault => 2#2

/-- The 2-bit code of DSTATE (10_state.md R32). -/
def dstateCode : DState → BitVec 2
  | .idle => 0#2
  | .waitAddr => 1#2
  | .waitData => 2#2

/-- FINFO of a command fault: zext_16(op) | (PHASE << 4) (60_exceptions.md R200). -/
def commandInfo (op : BitVec 2) (p : Phase) : Word16 := op.setWidth 16 ||| ((phaseCode p).setWidth 16 <<< 4)

/-- FINFO of a range fault: the index in 16-bit two's complement (60_exceptions.md R200). -/
def indexInfo (i : Int) : Word16 := BitVec.ofInt 16 i

/-- FINFO of a truncation fault: the record's first byte, rebuilt from its tag and HOLD (60_exceptions.md R201). -/
def firstByteInfo (t : BitVec 2) (hold : Half) : Word16 := (tagged t hold).setWidth 16

end Sys2Proof.Machine
end

