-- ==== Sys2Proof/WellFormed.lean ====
section
/-! DEFINITION. Well-formedness of instructions and records: the one check the encodings need is that an Invalid
record's low bits are not all zero, since 0x80 is Leader (30_encoding.md R91, R92). -/

namespace Sys2Proof

/-- An instruction the encodings of 30_encoding.md can express. -/
def Instr.wellFormed : Instr → Bool
  | .invalid n => n ≠ 0#6
  | .leader | .field _ _ | .addr _ | .addrB2 _ _ | .data _ | .dataB2 _ _ | .byte _ | .endOp | .scan | .reservedOp
  | .reset | .count _ | .cell _ | .pair _ | .reg _ => true

/-- A record the encoder of 30_encoding.md R99 is defined on: Invalid n has n in 1..63. -/
def Record.wellFormed : Record → Bool
  | .invalid n => n ≠ 0#6
  | .leader | .fieldSet _ | .addressSet _ | .dataWrite _ => true

/-- Whether the decoder reads the instruction in this phase and sub-state: the "condition" of its opcode-table row.
A record's first byte is read in DECODE and IDLE, its continuation in DECODE and the matching wait state, and a byte
that no record takes in DONE and FAULT (40_record_decoder.md R120). Every other instruction is read everywhere. -/
def Instr.readIn (p : Phase) (d : DState) : Instr → Bool
  | .leader | .field _ _ | .invalid _ | .addr _ | .data _ => p = .decode && d = .idle
  | .addrB2 _ _ => p = .decode && d = .waitAddr
  | .dataB2 _ _ => p = .decode && d = .waitData
  | .byte _ => p ≠ .decode
  | .endOp | .scan | .reservedOp | .reset | .count _ | .cell _ | .pair _ | .reg _ => true

end Sys2Proof
end

