-- ==== Sys2Proof/Decode.lean ====
section
/-! DEFINITION. The decoder, total on any byte and any request, and the encoder after it (30_encoding.md).
No first byte and no continuation byte is illegal (30_encoding.md R97), so the instruction decoder refuses nothing; the
record decoder over a byte list rejects by name a list that ends inside a record. -/

namespace Sys2Proof

open Machine (byteTag byteHalf byteField byteRest tagged join highHalf lowHalf)

/-- The class of a first byte, by the tests of 30_encoding.md R92 in their order. -/
def decodeFirst (b : Byte) : Instr :=
  if b = 0x80#8 then .leader
  else if byteTag b = 0b11#2 then .field (byteField b) (byteRest b)
  else if byteTag b = 0b10#2 then .invalid (byteHalf b)
  else if byteTag b = 0b01#2 then .addr (byteHalf b)
  else .data (byteHalf b)

/-- What a byte of the stream is: in DECODE its sub-state decides, and a continuation byte is never classified
(30_encoding.md R95; 40_record_decoder.md R120). In DONE and FAULT no record takes it and it is the operation BYTE
itself. DEDUCED: notes/assumptions/6.md. -/
def decodeByte (p : Phase) (d : DState) (b : Byte) : Instr :=
  match p with
  | .decode =>
    match d with
    | .idle => decodeFirst b
    | .waitAddr => .addrB2 (byteTag b) (byteHalf b)
    | .waitData => .dataB2 (byteTag b) (byteHalf b)
  | .done => .byte b
  | .fault => .byte b

/-- The instruction a request is, in the phase and sub-state the block is in (30_encoding.md R100, R101). -/
def decode (p : Phase) (d : DState) : Request → Instr
  | .op code b =>
    if code = 0b00#2 then decodeByte p d b
    else if code = 0b01#2 then .endOp
    else if code = 0b10#2 then .scan
    else .reservedOp
  | .rst => .reset
  | .count a => .count a
  | .cell a => .cell a
  | .pair j => .pair j
  | .reg n => .reg n

/-- The request that presents a byte: op 0b00 (30_encoding.md R100). -/
def byteRequest (b : Byte) : Request := .op 0b00#2 b

/-- The request that signals exhaustion: op 0b01 (30_encoding.md R100). -/
def endRequest : Request := .op 0b01#2 0#8

/-- The request for the scan: op 0b10 (30_encoding.md R100). -/
def scanRequest : Request := .op 0b10#2 0#8

/-- The request with the reserved op code 0b11 (30_encoding.md R100). -/
def reservedRequest : Request := .op 0b11#2 0#8

/-- The request an instruction is written as (30_encoding.md R91, R100, R101). END, SCAN and the reserved op take no
operand: in_byte is then 0 (DESIGN CHOICE: notes/assumptions/15.md). -/
def encode : Instr → Request
  | .leader => byteRequest 0x80#8
  | .field f x => byteRequest (0b11#2 ++ f ++ x)
  | .invalid n => byteRequest (tagged 0b10#2 n)
  | .addr h => byteRequest (tagged 0b01#2 h)
  | .addrB2 t l => byteRequest (tagged t l)
  | .data h => byteRequest (tagged 0b00#2 h)
  | .dataB2 t l => byteRequest (tagged t l)
  | .byte b => byteRequest b
  | .endOp => endRequest
  | .scan => scanRequest
  | .reservedOp => reservedRequest
  | .reset => .rst
  | .count a => .count a
  | .cell a => .cell a
  | .pair j => .pair j
  | .reg n => .reg n

/-- The bytes of a record (30_encoding.md R99). -/
def encodeRecord : Record → List Byte
  | .leader => [0x80#8]
  | .fieldSet f => [0b11#2 ++ f ++ 0#3]
  | .invalid n => [tagged 0b10#2 n]
  | .addressSet a => [tagged 0b01#2 (highHalf a), tagged 0b00#2 (lowHalf a)]
  | .dataWrite v => [tagged 0b00#2 (highHalf v), tagged 0b00#2 (lowHalf v)]

/-- The two-byte record a first byte's tag starts, from its two halves (30_encoding.md R90, R94). -/
def decodePair (b1 : Byte) (rest : List Byte) : Except StreamError (Record × List Byte) :=
  match rest with
  | [] => .error .truncated
  | b2 :: rest =>
    let v := join (byteHalf b1) (byteHalf b2)
    .ok (if byteTag b1 = 0b01#2 then .addressSet v else .dataWrite v, rest)

/-- The first record of a byte list and the bytes after it, or why there is none (30_encoding.md R90, R92). -/
def decodeRecord : List Byte → Except StreamError (Record × List Byte)
  | [] => .error .exhausted
  | b1 :: rest =>
    if b1 = 0x80#8 then .ok (.leader, rest)
    else if byteTag b1 = 0b11#2 then .ok (.fieldSet (byteField b1), rest)
    else if byteTag b1 = 0b10#2 then .ok (.invalid (byteHalf b1), rest)
    else decodePair b1 rest

/-- The pseudo-instructions `LEADER n` and `TRAILER n` (30_encoding.md R104). -/
def leaderBytes (n : Nat) : List Byte := List.replicate n 0x80#8

/-- The pseudo-instruction `WORDS a: v1, ..., vk` (30_encoding.md R104). -/
def wordsBytes (a : Addr) (vs : List Addr) : List Byte :=
  encodeRecord (.addressSet a) ++ vs.flatMap fun v => encodeRecord (.dataWrite v)

/-- The requests that an opcode-table word of `nbits` bits stands for. The table numbers the words of two ports in the
same low bits: a word of fewer than 8 bits is an op code, and so are the 8-bit words 1, 2 and 3 (they are DATA first
bytes too); every other 8-bit word is a byte of the stream, and a longer word is the bytes of a record, lowest first.
DESIGN CHOICE: notes/assumptions/7.md. -/
def tableRequests (nbits w : Nat) : List Request :=
  if nbits = 0 then []
  else if nbits < 8 then [.op (BitVec.ofNat 2 w) 0#8]
  else if nbits = 8 then
    if 1 ≤ w ∧ w ≤ 3 then [.op (BitVec.ofNat 2 w) 0#8] else [byteRequest (BitVec.ofNat 8 w)]
  else [byteRequest (BitVec.ofNat 8 w), byteRequest (BitVec.ofNat 8 (w / 256))]

/-- The instruction the decoder reads from an opcode-table word, in the phase and sub-state of State.reset. -/
def decodeTableWord (nbits w : Nat) : Option Instr :=
  (tableRequests nbits w).head?.map (decode .decode .idle)

end Sys2Proof
end

