-- ==== Sys2Proof/Machine/State.lean ====
section
/-! DEFINITION. The state of the RDOS block as plain data (10_state.md R30), with the inputs it samples and the outputs
it has given, and the reasons a step could stop. -/

namespace Sys2Proof.Machine

/-- FCODE, the fault code (10_state.md R40). Its 2-bit code is `FaultCode.code`. -/
inductive FaultCode where
  /-- no fault -/
  | none
  /-- the truncation fault (60_exceptions.md R201) -/
  | trunc
  /-- the address range fault (60_exceptions.md R202) -/
  | range
  /-- the command fault (60_exceptions.md R203) -/
  | cmd
deriving DecidableEq, Repr

/-- One item of the block's ordered output (40_record_decoder.md R130). -/
inductive Event where
  /-- LEADER(count) -/
  | leader (count : Nat)
  /-- FIELD(field) -/
  | field (f : BitVec 3)
  /-- ADDR(address) -/
  | addr (a : Addr)
  /-- DATA(address, value, mark) -/
  | data (a : Addr) (v : Addr) (mark : Bool)
  /-- INVALID -/
  | invalid
  /-- REGION(start, end) -/
  | region (start stop : Addr)
deriving DecidableEq, Repr

/-- What a read port answers (30_encoding.md R101). -/
inductive ReadValue where
  /-- COUNT: a UCW-bit signed value -/
  | count (v : Int)
  /-- CELL: a 2-bit class -/
  | cell (c : BitVec 2)
  /-- PAIR: a 2-bit class -/
  | pair (c : BitVec 2)
  /-- REG: a 16-bit status register -/
  | reg (w : Word16)
deriving DecidableEq, Repr

/-- One listed entry of the usage table: its index and its count (20_memory.md R60). -/
abbrev Entry := Nat × Int

/-- The usage table, the block's one memory, in one canonical form (`Memory.wf`): indices strictly rising, no listed
count equal to what an unlisted entry reads as. -/
abbrev Memory := List Entry

/-- The state of the machine. The first eleven fields are the elements of 10_state.md R30, "No other state exists";
`cfg` is the configuration input and the parameters; the last three are the model's own record of the host's requests
and the block's outputs (notes/assumptions/3.md, 4.md, 5.md). -/
structure State where
  /-- PHASE (R31) -/
  phase : Phase
  /-- DSTATE (R32) -/
  dstate : DState
  /-- HOLD (R33) -/
  hold : Half
  /-- LCNT, LCW bits unsigned (R34) -/
  lcnt : Nat
  /-- CUR (R35) -/
  cur : Cursor
  /-- PEND (R36) -/
  pend : Bool
  /-- ANYW (R37) -/
  anyw : Bool
  /-- UT, 4096 signed counters of UCW bits (R38) -/
  ut : Memory
  /-- OVL (R39) -/
  ovl : Addr
  /-- FCODE (R40) -/
  fcode : FaultCode
  /-- FINFO (R41) -/
  finfo : Word16
  /-- cfg_ck (R42) and the parameters LCW, UCW (00_scope.md R10, R11): no operation writes them -/
  cfg : Config
  /-- the model's own: the requests the host has still to issue, the next one first -/
  pending : List Request
  /-- the model's own: the events the block has sent, in order -/
  events : List Event
  /-- the model's own: what the last read-port request answered -/
  readOut : Option ReadValue
deriving DecidableEq, Repr

/-- Why a step stops with a fault. There is none: the block's faults TRUNC, RANGE and CMD are next states in PHASE
FAULT, which answer reads and which RESET leaves (60_exceptions.md R204, R205), so nothing raises a constructor here.
Safe (notes/assumptions/12.md). -/
inductive Fault
deriving DecidableEq, Repr

/-- Why a step is refused. -/
inductive Refusal where
  /-- raised by exec for an instruction that has no meaning yet: no arm of exec raises it. Safe. -/
  | notModelled (mnemonic : String)
deriving DecidableEq, Repr

/-- The machine right after RESET, every element at the value of 10_state.md R30 and 70_reset_and_hazards.md R230. The
fields that are no element of R30 hold DESIGN CHOICE values: the default widths with cfg_ck off, and nothing pending,
sent or read (notes/assumptions/1.md to 5.md). -/
def State.reset : State where
  phase := .decode
  dstate := .idle
  hold := 0#6
  lcnt := 0
  cur := 0#13
  pend := false
  anyw := false
  ut := []
  ovl := 0#12
  fcode := .none
  finfo := 0#16
  cfg := Config.initial
  pending := []
  events := []
  readOut := none

end Sys2Proof.Machine
end

