-- ==== Sys2Proof/Machine/Flags.lean ====
section
/-! DEFINITION. The flags PEND and ANYW, the status registers' layout, the fault output and the event port's layout
(10_state.md R36, R37, R40, R43, R45; 60_exceptions.md R209; 30_encoding.md R102). The block has no condition codes. -/

namespace Sys2Proof.Machine

/-- The 2-bit code of FCODE (10_state.md R40). -/
def faultCodeBits : FaultCode → BitVec 2
  | .none => 0#2
  | .trunc => 1#2
  | .range => 2#2
  | .cmd => 3#2

/-- The flags after an AddressSet: PEND is set (10_state.md R36). -/
def State.flagAddress (s : State) : State := { s with pend := true }

/-- The flags after an accumulated DataWrite: ANYW is set and PEND is cleared (10_state.md R36, R37). -/
def State.flagDataWrite (s : State) : State := { s with anyw := true, pend := false }

/-- REG0 STATUS: PHASE [1:0], FCODE [3:2], DSTATE [5:4], PEND [6], ANYW [7], the rest 0 (10_state.md R43). -/
def statusWord (s : State) : Word16 :=
  0#8 ++ BitVec.ofBool s.anyw ++ BitVec.ofBool s.pend ++ dstateCode s.dstate ++ faultCodeBits s.fcode
    ++ phaseCode s.phase

/-- Status register n: STATUS, CURSOR, OVERLAPS, FAULTINFO (10_state.md R43; 41_accumulator_scanner.md R158). -/
def statusRegister (n : BitVec 2) (s : State) : Word16 :=
  if n = 0#2 then statusWord s
  else if n = 1#2 then s.cur.setWidth 16
  else if n = 2#2 then s.ovl.setWidth 16
  else s.finfo

/-- The level output fault = (FCODE ≠ NONE) (60_exceptions.md R209). -/
def faultOutput (s : State) : Bool := s.fcode ≠ .none

/-- ev_kind of an event: 1 to 6, 0 and 7 are never sent (30_encoding.md R102). -/
def eventKind : Event → BitVec 3
  | .leader _ => 1#3
  | .field _ => 2#3
  | .addr _ => 3#3
  | .data _ _ _ => 4#3
  | .invalid => 5#3
  | .region _ _ => 6#3

/-- ev_p0 of an event, as a number below 2^max(LCW, 12) (30_encoding.md R102). -/
def eventP0 : Event → Nat
  | .leader n => n
  | .field f => f.toNat
  | .addr a => a.toNat
  | .data a _ _ => a.toNat
  | .invalid => 0
  | .region start _ => start.toNat

/-- ev_p1 of an event; 0 where the event does not use it (30_encoding.md R102). -/
def eventP1 : Event → Addr
  | .data _ v _ => v
  | .region _ stop => stop
  | .leader _ | .field _ | .addr _ | .invalid => 0#12

/-- ev_mark of an event; 0 where the event does not use it (30_encoding.md R102). -/
def eventMark : Event → Bool
  | .data _ _ mark => mark
  | .leader _ | .field _ | .addr _ | .invalid | .region _ _ => false

end Sys2Proof.Machine
end

