-- ==== Sys2Proof/Machine/Ops.lean ====
section
/-! DEFINITION. The shared operations: the usage table, events, fault entry and the fault state's gate, the leader
flush, the record steps of the decoder, the checked table updates, the scan, RESET, the read ports and the taking of
the host's next request. -/

namespace Sys2Proof.Machine

/-! ### The usage table (20_memory.md R60) -/

/-- What an unlisted entry reads as: the table's reset content, 0 (10_state.md R30 "all 0"). -/
def Memory.blank : Int := 0

/-- The entries' canonical form after the index `lo`: rising, below 4096, none blank. -/
def Memory.wfFrom : Nat → Memory → Bool
  | _, [] => true
  | lo, (k, v) :: m => lo ≤ k && k < 4096 && v ≠ Memory.blank && Memory.wfFrom (k + 1) m

/-- The canonical form of the usage table over its 4096 indices (20_memory.md R60). -/
def Memory.wf (m : Memory) : Bool := m.wfFrom 0

/-- The table without entry `i`: it reads blank there. -/
def Memory.erase (m : Memory) (i : Nat) : Memory := m.filter fun e => e.1 ≠ i

/-- The count listed at its place in rising order, into a table that does not list `i`. -/
def Memory.place (i : Nat) (v : Int) : Memory → Memory
  | [] => [(i, v)]
  | (k, w) :: m => if i < k then (i, v) :: (k, w) :: m else (k, w) :: Memory.place i v m

/-- MemRead(i, 1): the whole entry `i` (20_memory.md R60). -/
def Memory.read (m : Memory) (i : Nat) : Int :=
  match m with
  | [] => Memory.blank
  | (k, v) :: m => if k = i then v else Memory.read m i

/-- MemWrite(i, 1, v): the whole entry `i`; a blank count is not listed (20_memory.md R60). -/
def Memory.write (m : Memory) (i : Nat) (v : Int) : Memory :=
  if v = Memory.blank then m.erase i else (m.erase i).place i v

/-! ### Events and fault entry -/

/-- `emit E`: append the event to the ordered output stream (00_scope.md R13; 40_record_decoder.md R131). -/
def State.emit (s : State) (e : Event) : State := { s with events := s.events ++ [e] }

/-- `raise F(info)`, fault entry: PHASE, FCODE and FINFO are written and nothing is saved for a return
(60_exceptions.md R204). The operation ends with this state. -/
def State.raise (s : State) (f : FaultCode) (info : Word16) : State :=
  { s with phase := .fault, fcode := f, finfo := info }

/-- The phase check every op code makes first: ignored in FAULT, carried out in the phase that allows it, and CMD in any
other (60_exceptions.md R203, R205, R207). The reserved op has no legal phase. -/
def State.gate (s : State) (legal : Option Phase) (op : BitVec 2) (body : State → State) : State :=
  match s.phase with
  | .fault => s
  | .decode => if legal = some .decode then body s else s.raise .cmd (commandInfo op .decode)
  | .done => if legal = some .done then body s else s.raise .cmd (commandInfo op .done)

/-! ### Table updates (20_memory.md R67; 41_accumulator_scanner.md R150, R151) -/

/-- A checked read-modify-write of entry `i`: RANGE instead of an access when the index lies outside [0, 4095]
(20_memory.md R67; 60_exceptions.md R202). `.error` carries the state after fault entry. -/
def State.updateEntry (s : State) (i : Int) (f : Int → Int) : Except State State :=
  if 0 ≤ i ∧ i ≤ 4095 then .ok { s with ut := s.ut.write i.toNat (f (s.ut.read i.toNat)) }
  else .error (s.raise .range (indexInfo i))

/-- Accumulate(CUR) (41_accumulator_scanner.md R150). -/
def State.accumulate (s : State) : Except State State := s.updateEntry s.cur.toNat (satIncUcw s.cfg)

/-- ChecksumCorrection(): entry CUR - 1 loses one (41_accumulator_scanner.md R151). For a cursor past 4096, which no run
reaches (10_state.md R46), the index check of 20_memory.md R67 raises RANGE: notes/assumptions/10.md. -/
def State.checksumCorrection (s : State) : Except State State := s.updateEntry (s.cur.toNat - 1) (· - 1)

/-! ### The record steps of the decoder (40_record_decoder.md R121 to R128) -/

/-- The leader flush: report and end a leader run in progress (40_record_decoder.md R122). -/
def State.flushLeader (s : State) : State :=
  if 0 < s.lcnt then { s.emit (.leader s.lcnt) with lcnt := 0 } else s

/-- LEADER: one more byte of the run, saturating (40_record_decoder.md R121). -/
def State.leaderByte (s : State) : State := { s with lcnt := satIncLcw s.cfg s.lcnt }

/-- FIELD: flush, then the event; nothing else is written (40_record_decoder.md R122, R123). -/
def State.fieldByte (s : State) (f : BitVec 3) : State := s.flushLeader.emit (.field f)

/-- INVALID: flush, then the event; no fault (40_record_decoder.md R122, R124). -/
def State.invalidByte (s : State) : State := s.flushLeader.emit .invalid

/-- ADDR first byte: flush, hold the high half and await the continuation (40_record_decoder.md R122, R125). -/
def State.addrHigh (s : State) (h : Half) : State := { s.flushLeader with hold := h, dstate := .waitAddr }

/-- DATA first byte: flush, hold the high half and await the continuation (40_record_decoder.md R122, R126). -/
def State.dataHigh (s : State) (h : Half) : State := { s.flushLeader with hold := h, dstate := .waitData }

/-- AddrLow: complete an AddressSet (40_record_decoder.md R127). -/
def State.addrLow (s : State) (l : Half) : State :=
  let a := join s.hold l
  { (s.emit (.addr a)).flagAddress with cur := a.setWidth 13, dstate := .idle }

/-- DataLow: complete a DataWrite. The index check comes before any write or event (40_record_decoder.md R128). -/
def State.dataLow (s : State) (l : Half) : State :=
  match s.accumulate with
  | .error faulted => faulted
  | .ok counted =>
    { (counted.emit (.data (cursorAddr s.cur) (join s.hold l) s.pend)).flagDataWrite with
      cur := s.cur + 1#13, dstate := .idle }

/-- FirstByte(b): a byte at a record boundary (40_record_decoder.md R120). -/
def State.firstByte (s : State) (b : Byte) : State :=
  if b = 0x80#8 then s.leaderByte
  else if byteTag b = 0b11#2 then s.fieldByte (byteField b)
  else if byteTag b = 0b10#2 then s.invalidByte
  else if byteTag b = 0b01#2 then s.addrHigh (byteHalf b)
  else s.dataHigh (byteHalf b)

/-- A byte in phase DECODE, by sub-state (40_record_decoder.md R120). -/
def State.takeByte (s : State) (b : Byte) : State :=
  match s.dstate with
  | .idle => s.firstByte b
  | .waitAddr => s.addrLow (byteHalf b)
  | .waitData => s.dataLow (byteHalf b)

/-- A record instruction presented as its byte `b` through the operation BYTE: where the block is in the sub-state that
reads it, its own `body`; in another sub-state the byte is whatever that sub-state takes it for
(40_record_decoder.md R120; 30_encoding.md R95, R103). DEDUCED: notes/assumptions/6.md. -/
def State.present (s : State) (d : DState) (b : Byte) (body : State → State) : State :=
  s.gate (some .decode) 0b00#2 fun s => if s.dstate = d then body s else s.takeByte b

/-! ### END (40_record_decoder.md R129) -/

/-- END in phase DECODE at a record boundary: flush, correct in checksummed mode once a DataWrite has occurred, and end
the stream. -/
def State.finishStream (s : State) : State :=
  let flushed := s.flushLeader
  if s.cfg.ck ∧ s.anyw then
    match flushed.checksumCorrection with
    | .error faulted => faulted
    | .ok corrected => { corrected with phase := .done }
  else { flushed with phase := .done }

/-- END in phase DECODE: the truncation check comes first (40_record_decoder.md R129; 60_exceptions.md R201, R207). -/
def State.endStream (s : State) : State :=
  match s.dstate with
  | .waitAddr => s.raise .trunc (firstByteInfo 0b01#2 s.hold)
  | .waitData => s.raise .trunc (firstByteInfo 0b00#2 s.hold)
  | .idle => s.finishStream

/-! ### SCAN (41_accumulator_scanner.md R152) -/

/-- The scan's loop over the `n` indices from `i` on, with the start of the open run if one is open: the regions it
reports, in order. -/
def scanFrom (m : Memory) : (n i : Nat) → Option Nat → List (Nat × Nat)
  | 0, _, none => []
  | 0, i, some start => [(start, i - 1)]
  | n + 1, i, none => scanFrom m n (i + 1) (if m.read i > 1 then some i else none)
  | n + 1, i, some start =>
    if m.read i > 1 then scanFrom m n (i + 1) (some start)
    else (start, i - 1) :: scanFrom m n (i + 1) none

/-- The overlap regions of a table: one pass over the indices 0 to 4095 (41_accumulator_scanner.md R152). -/
def scanRegions (m : Memory) : List (Nat × Nat) := scanFrom m 4096 0 none

/-- The REGION event of a region (40_record_decoder.md R130). -/
def regionEvent (r : Nat × Nat) : Event := .region (BitVec.ofNat 12 r.1) (BitVec.ofNat 12 r.2)

/-- SCAN in phase DONE: the REGION events in order, and OVL their number (41_accumulator_scanner.md R152). -/
def State.scanTable (s : State) : State :=
  { s with
    events := s.events ++ (scanRegions s.ut).map regionEvent
    ovl := BitVec.ofNat 12 (scanRegions s.ut).length }

/-! ### RESET (70_reset_and_hazards.md R230, R231) -/

/-- Every element to its reset value; no event, no fault; the configuration and the host's side are no element. -/
def State.resetBlock (s : State) : State :=
  { s with
    phase := .decode, dstate := .idle, hold := 0#6, lcnt := 0, cur := 0#13, pend := false, anyw := false, ut := [],
    ovl := 0#12, fcode := .none, finfo := 0#16 }

/-! ### Read ports (41_accumulator_scanner.md R155 to R158) -/

/-- The full-map class of a count (41_accumulator_scanner.md R156). -/
def cellClass (c : Int) : BitVec 2 :=
  if c ≥ 2 then 2#2 else if c = 1 then 1#2 else if c = 0 then 0#2 else 3#2

/-- The compressed-map class of two counts, an overlap first (41_accumulator_scanner.md R157). -/
def pairClass (c0 c1 : Int) : BitVec 2 :=
  if c0 ≥ 2 ∨ c1 ≥ 2 then 2#2 else if c0 = 1 ∨ c1 = 1 then 1#2 else if c0 = 0 ∧ c1 = 0 then 0#2 else 3#2

/-- A read port's answer; no state of the block changes (30_encoding.md R101). -/
def State.answer (s : State) (v : ReadValue) : State := { s with readOut := some v }

/-! ### The host's requests -/

/-- The host's next request and the state once the host has issued it (10_state.md R44): none when it asks nothing. -/
def State.nextRequest (s : State) : Option (Request × State) :=
  match s.pending with
  | [] => none
  | r :: rest => some (r, { s with pending := rest })

end Sys2Proof.Machine
end

