-- ==== Sys2Proof/Machine/Records.lean ====
section
/-! DEFINITION. The meanings of the record bytes: LEADER, FIELD, INVALID, ADDR, ADDR.b2, DATA, DATA.b2
(40_record_decoder.md R121 to R128). Each is a byte presented by the operation BYTE: ignored in FAULT, CMD in DONE. -/

namespace Sys2Proof.Machine

/-- What every meaning answers. -/
abbrev Result := Host.Outcome State Fault Refusal

/-- LEADER (40_record_decoder.md R121). -/
def execLeader (s : State) : Result := .next (s.present .idle 0x80#8 State.leaderByte)

/-- FIELD; the bits x are ignored (40_record_decoder.md R123). -/
def execField (f x : BitVec 3) (s : State) : Result :=
  .next (s.present .idle (0b11#2 ++ f ++ x) fun s => s.fieldByte f)

/-- INVALID (40_record_decoder.md R124). -/
def execInvalid (n : Half) (s : State) : Result :=
  .next (s.present .idle (tagged 0b10#2 n) State.invalidByte)

/-- ADDR, first byte (40_record_decoder.md R125). -/
def execAddr (h : Half) (s : State) : Result :=
  .next (s.present .idle (tagged 0b01#2 h) fun s => s.addrHigh h)

/-- ADDR.b2; the bits t are ignored (40_record_decoder.md R127). -/
def execAddrB2 (t : BitVec 2) (l : Half) (s : State) : Result :=
  .next (s.present .waitAddr (tagged t l) fun s => s.addrLow l)

/-- DATA, first byte (40_record_decoder.md R126). -/
def execData (h : Half) (s : State) : Result :=
  .next (s.present .idle (tagged 0b00#2 h) fun s => s.dataHigh h)

/-- DATA.b2; the bits t are ignored (40_record_decoder.md R128). -/
def execDataB2 (t : BitVec 2) (l : Half) (s : State) : Result :=
  .next (s.present .waitData (tagged t l) fun s => s.dataLow l)

end Sys2Proof.Machine
end

