-- ==== Sys2Proof/Machine/HostOps.lean ====
section
/-! DEFINITION. The meanings of the host operations: BYTE, END, SCAN, the reserved op code and RESET
(30_encoding.md R100). -/

namespace Sys2Proof.Machine

/-- BYTE(b) (40_record_decoder.md R120). -/
def execByte (b : Byte) (s : State) : Result := .next (s.gate (some .decode) 0b00#2 fun s => s.takeByte b)

/-- END (40_record_decoder.md R129). -/
def execEnd (s : State) : Result := .next (s.gate (some .decode) 0b01#2 State.endStream)

/-- SCAN (41_accumulator_scanner.md R152). -/
def execScan (s : State) : Result := .next (s.gate (some .done) 0b10#2 State.scanTable)

/-- The reserved op code 0b11: CMD in DECODE and DONE, ignored in FAULT (60_exceptions.md R203, R205). -/
def execReservedOp (s : State) : Result := .next (s.gate none 0b11#2 id)

/-- RESET, allowed in every phase (70_reset_and_hazards.md R230, R231). -/
def execReset (s : State) : Result := .next s.resetBlock

end Sys2Proof.Machine
end

