-- ==== Sys2Proof/Machine/ReadPorts.lean ====
section
/-! DEFINITION. The meanings of the read ports COUNT, CELL, PAIR and REG, allowed in every phase and without side effect
(30_encoding.md R101; 41_accumulator_scanner.md R155 to R158). -/

namespace Sys2Proof.Machine

/-- COUNT(a) (41_accumulator_scanner.md R155). -/
def execCount (a : Addr) (s : State) : Result := .next (s.answer (.count (s.ut.read a.toNat)))

/-- CELL(a) (41_accumulator_scanner.md R156). -/
def execCell (a : Addr) (s : State) : Result := .next (s.answer (.cell (cellClass (s.ut.read a.toNat))))

/-- PAIR(j) (41_accumulator_scanner.md R157). -/
def execPair (j : BitVec 11) (s : State) : Result :=
  .next (s.answer (.pair (pairClass (s.ut.read (2 * j.toNat)) (s.ut.read (2 * j.toNat + 1)))))

/-- REG(n) (41_accumulator_scanner.md R158; 10_state.md R43). -/
def execReg (n : BitVec 2) (s : State) : Result := .next (s.answer (.reg (statusRegister n s)))

end Sys2Proof.Machine
end

