-- ==== Sys2Proof/Machine/Dispatch.lean ====
section
/-! DEFINITION. The dispatch: one arm per constructor of Instr, each one call of its meaning. -/

namespace Sys2Proof.Machine

def exec (i : Instr) (s : State) : Host.Outcome State Fault Refusal :=
  match i with
  | .leader => Sys2Proof.Machine.execLeader s
  | .field f x => Sys2Proof.Machine.execField f x s
  | .invalid n => Sys2Proof.Machine.execInvalid n s
  | .addr h => Sys2Proof.Machine.execAddr h s
  | .addrB2 t l => Sys2Proof.Machine.execAddrB2 t l s
  | .data h => Sys2Proof.Machine.execData h s
  | .dataB2 t l => Sys2Proof.Machine.execDataB2 t l s
  | .byte b => Sys2Proof.Machine.execByte b s
  | .endOp => Sys2Proof.Machine.execEnd s
  | .scan => Sys2Proof.Machine.execScan s
  | .reservedOp => Sys2Proof.Machine.execReservedOp s
  | .reset => Sys2Proof.Machine.execReset s
  | .count a => Sys2Proof.Machine.execCount a s
  | .cell a => Sys2Proof.Machine.execCell a s
  | .pair j => Sys2Proof.Machine.execPair j s
  | .reg n => Sys2Proof.Machine.execReg n s

end Sys2Proof.Machine
end

