-- ==== Sys2Proof/Machine/Step.lean ====
section
/-! DEFINITION. One step of the machine: the host's next request, decoded in the block's phase and sub-state and carried
out whole (00_scope.md R6, R13; 20_memory.md R68). -/

namespace Sys2Proof.Machine

/-- One step. With nothing asked the block is idle and all its state survives (60_exceptions.md R211:
notes/assumptions/8.md). -/
def step (s : State) : Host.Outcome State Fault Refusal :=
  match s.nextRequest with
  | none => .next s
  | some (r, s') => exec (decode s.phase s.dstate r) s'

/-- `s` with the requests of an opcode-table word put before everything the host has still to ask, so that the very next
step runs that instruction (notes/assumptions/3.md, 7.md). -/
def State.withFetchWord (s : State) (nbits w : Nat) : State :=
  { s with pending := tableRequests nbits w ++ s.pending }

end Sys2Proof.Machine
end

