-- ==== Sys2Proof/Safety.lean ====
section
/-! DEFINITION. What a safe run is, in the terms claims use: the end of a run, the invariants of the block, its state
right after RESET, the forms that store, and the counts the laws of 41_accumulator_scanner.md compare. -/

namespace Sys2Proof.Machine

/-- How far a run has come (45_host_interface.md R193). -/
inductive RunEnd where
  /-- neither of the two ends below has been reached, and none will be once a RESET has started another run -/
  | notEnded
  /-- the first SCAN issued in phase DONE has been carried out -/
  | completed
  /-- fault entry has happened: terminal, never final -/
  | faulted
deriving DecidableEq, Repr

/-- A request is SCAN (30_encoding.md R100). -/
def isScan : Request → Bool
  | .op code _ => code = 0b10#2
  | .rst | .count _ | .cell _ | .pair _ | .reg _ => false

/-- A request is RESET (30_encoding.md R100). -/
def isReset : Request → Bool
  | .rst => true
  | .op _ _ | .count _ | .cell _ | .pair _ | .reg _ => false

/-- A request is BYTE (30_encoding.md R100). -/
def isByte : Request → Bool
  | .op code _ => code = 0b00#2
  | .rst | .count _ | .cell _ | .pair _ | .reg _ => false

/-- At most `k` steps of a run, up to its end: the first SCAN in DONE or fault entry (45_host_interface.md R193). A RESET
asked before that end starts another run and is no step of this one (00_scope.md R14; R193 "RESET starts a new run"): the
run stops before it without having ended. -/
def runToEnd : Nat → State → RunEnd × State
  | 0, s => (.notEnded, s)
  | k + 1, s =>
    match s.nextRequest with
    | none => (.notEnded, s)
    | some (r, _) =>
      if isReset r then (.notEnded, s)
      else
        match step s with
        | .fault _ => (.notEnded, s)
        | .refused _ => (.notEnded, s)
        | .next t =>
          if s.phase = .done ∧ isScan r then (.completed, t)
          else if t.phase = .fault then (.faulted, t)
          else runToEnd k t

/-- The invariants of 10_state.md R46, (a) to (h) in its order. -/
structure State.Invariant (s : State) : Prop where
  /-- (a) -/
  cursor_in_range : s.cur.toNat ≤ 4096
  /-- (b) -/
  no_run_while_waiting : s.dstate ≠ .idle → s.lcnt = 0
  /-- (c) -/
  done_at_boundary : s.phase = .done → s.dstate = .idle ∧ s.lcnt = 0
  /-- (d) -/
  no_code_iff_no_fault : s.fcode = .none ↔ s.phase ≠ .fault
  /-- (e) -/
  unwritten_is_zero : s.anyw = false → ∀ i < 4096, s.ut.read i = 0
  /-- (f) -/
  counts_from_minus_one : ∀ i < 4096, -1 ≤ s.ut.read i
  /-- (g) -/
  counts_from_zero_in_decode : s.phase = .decode → ∀ i < 4096, 0 ≤ s.ut.read i
  /-- (h) -/
  overlaps_at_most_2048 : s.ovl.toNat ≤ 2048

/-- The form that adds to the entry at CUR: a byte that completes a DataWrite with CUR inside the table
(40_record_decoder.md R128, R132; 41_accumulator_scanner.md R150). -/
def State.countsAtCursor (s : State) (i : Instr) : Prop :=
  s.phase = .decode ∧ s.dstate = .waitData ∧ isByte (encode i) = true ∧ s.cur.toNat ≤ 4095

/-- The form that takes from the entry at CUR - 1: END at a record boundary in checksummed mode after a DataWrite, with
CUR - 1 inside the table (40_record_decoder.md R129, R132; 41_accumulator_scanner.md R151). -/
def State.correctsBeforeCursor (s : State) (i : Instr) : Prop :=
  s.phase = .decode ∧ s.dstate = .idle ∧ i = .endOp ∧ s.cfg.ck = true ∧ s.anyw = true ∧
    1 ≤ s.cur.toNat ∧ s.cur.toNat ≤ 4096

/-- The state keeps to the widths the spec gives it, and the table to its canonical form: LCNT fits LCW bits
(00_scope.md R11), no count exceeds UCW_MAX (R10), FINFO is 0 without a fault (10_state.md R41). -/
structure State.Sized (s : State) : Prop where
  /-- LCNT fits in LCW bits -/
  leader_count_fits : s.lcnt ≤ lcntMax s.cfg
  /-- no count exceeds UCW_MAX -/
  counts_fit : ∀ i < 4096, s.ut.read i ≤ ucwMax s.cfg
  /-- FINFO is 0 while FCODE = NONE -/
  no_info_without_fault : s.fcode = .none → s.finfo = 0#16
  /-- the table is in its canonical form -/
  table_canonical : s.ut.wf = true

/-- Every element of 10_state.md R30 at its reset value, whatever the configuration and the host's side are. -/
structure State.AtReset (s : State) : Prop where
  /-- PHASE = DECODE -/
  phase : s.phase = .decode
  /-- DSTATE = IDLE -/
  dstate : s.dstate = .idle
  /-- HOLD = 0 -/
  hold : s.hold = 0#6
  /-- LCNT = 0 -/
  lcnt : s.lcnt = 0
  /-- CUR = 0 -/
  cur : s.cur = 0#13
  /-- PEND = 0 -/
  pend : s.pend = false
  /-- ANYW = 0 -/
  anyw : s.anyw = false
  /-- every entry 0: nothing is listed -/
  ut : s.ut = []
  /-- OVL = 0 -/
  ovl : s.ovl = 0#12
  /-- FCODE = NONE -/
  fcode : s.fcode = .none
  /-- FINFO = 0 -/
  finfo : s.finfo = 0#16

/-- An event is a DATA event. -/
def Event.isData : Event → Bool
  | .data _ _ _ => true
  | .leader _ | .field _ | .addr _ | .invalid | .region _ _ => false

/-- The number of DATA events in a stream: W of 41_accumulator_scanner.md R159. -/
def dataCount (es : List Event) : Nat := es.countP Event.isData

/-- The sum of the 4096 counts (41_accumulator_scanner.md R159). -/
def tableSum (m : Memory) : Int := ((List.range 4096).map m.read).sum

/-- In the next `k` steps no DataWrite finds its entry at UCW_MAX: "a run in which no entry saturated"
(41_accumulator_scanner.md R159). -/
def neverSaturates : Nat → State → Bool
  | 0, _ => true
  | k + 1, s =>
    !(s.phase = .decode && s.dstate = .waitData && s.pending.head?.any isByte &&
        decide (ucwMax s.cfg ≤ s.ut.read s.cur.toNat)) &&
      match step s with
      | .next t => neverSaturates k t
      | .fault _ => true
      | .refused _ => true

/-- The decoded records of two streams agree in everything but the values of their DataWrites
(41_accumulator_scanner.md R161). -/
def sameButValue (r r' : Record) : Prop := r = r' ∨ ∃ v v', r = .dataWrite v ∧ r' = .dataWrite v'

/-- The characters are a number's octal digits, leading zeros allowed (45_host_interface.md R185). -/
def printsOctal (ds : List Char) (n : Nat) : Prop :=
  ds ≠ [] ∧ (∀ c ∈ ds, '0' ≤ c ∧ c ≤ '7') ∧ ds.foldl (fun v c => 8 * v + (c.toNat - '0'.toNat)) 0 = n

/-- An event without the value a DATA event carries (41_accumulator_scanner.md R161). -/
def Event.withoutValue : Event → Event
  | .data a _ mark => .data a 0#12 mark
  | .leader n => .leader n
  | .field f => .field f
  | .addr a => .addr a
  | .invalid => .invalid
  | .region start stop => .region start stop

/-- The events a leader run of `n` bytes is reported by when it is flushed: one LEADER event, or none without a run
(40_record_decoder.md R122). -/
def leaderReport (n : Nat) : List Event := if 0 < n then [.leader n] else []

end Sys2Proof.Machine
end

