-- ==== Sys2Proof/Machine/Report.lean ====
section
/-! DEFINITION. An observation layer: what the host prints and answers from the block's results, as
45_host_interface.md R183 to R191 transcribe it. It is host behaviour, outside the block (00_scope.md R4): no step uses
it. What the spec leaves open is an argument of every function here (92_eei_decisions.md D19, D31, D36 to D38), and
`HostParams.ok` says what the spec does ask of it. -/

namespace Sys2Proof.Machine

/-- The map view the host selects: at most one per run (45_host_interface.md R189). -/
inductive MapMode where
  /-- no map -/
  | none
  /-- one character per pair of addresses (R188) -/
  | compressed
  /-- one character per address (R189) -/
  | full
deriving DecidableEq, Repr

/-- The host's output options; none of them changes the block's state (00_scope.md R4 (d)). -/
structure HostOptions where
  /-- verboseTrace (R185) -/
  verboseTrace : Bool
  /-- silentReport (R186) -/
  silentReport : Bool
  /-- mapMode (R187 to R189) -/
  mapMode : MapMode
deriving DecidableEq, Repr

/-- The literal text before and after what a line prints. -/
structure LineText where
  /-- what stands before -/
  before : String
  /-- what stands after -/
  after : String
deriving DecidableEq, Repr

/-- The open host parameters (notes/assumptions/18.md). A number itself is no parameter: it is printed in octal, and only
the text around it, and its padding where the spec gives none, are open. -/
structure HostParams where
  /-- TRACE_FMT: the text around a LEADER line's count (D38) -/
  leaderText : LineText
  /-- TRACE_FMT: the least number of octal digits of a LEADER line's count (D38) -/
  leaderDigits : Nat
  /-- TRACE_FMT: the text around a FIELD line's number (D38) -/
  fieldText : LineText
  /-- TRACE_FMT: the least number of octal digits of a FIELD line's number (D38) -/
  fieldDigits : Nat
  /-- TRACE_FMT: the text around a DATA line's address and value, after the `*` if there is one (D38) -/
  dataText : LineText
  /-- TRACE_FMT: the text between a DATA line's address and its value (D38) -/
  dataBetween : String
  /-- TRACE_FMT: the text around an ADDR line's address, or none where ADDR prints no line (D38) -/
  addrText : Option LineText
  /-- TRACE_FMT: the text of an INVALID line, or none where INVALID prints no line (D38) -/
  invalidText : Option String
  /-- TRACE_FMT: the least number of octal digits of a region line's numbers (R186; D38) -/
  regionDigits : Nat
  /-- LABEL_FMT: the least width of a map label (D37) -/
  labelWidth : Nat
  /-- LABEL_FMT: the character a shorter label is padded with (D37) -/
  labelPadding : Char
  /-- LABEL_FMT: what stands between a label and its line's characters (D37) -/
  labelSeparator : String
  /-- NEG_CELL_CHAR (D19) -/
  negCellChar : Char
  /-- the diagnostic message of a fault, from FCODE and FINFO: the spec gives no text (R191; D11;
  notes/assumptions/22.md) -/
  diagnostic : FaultCode → Word16 → String
  /-- RESULT_MAP (D36) -/
  resultMap : Addr → Nat
  /-- FAIL_CODE (D31) -/
  failCode : Nat

/-- A text that can stand on a line beside octal numbers: it breaks no line and prints no number of its own. -/
def literalText (t : String) : Bool := t.toList.all fun c => c ≠ '\n' && !c.isDigit

/-- A text that can open a trace line: it does not begin with the star, which is the mark's alone
(45_host_interface.md R185). -/
def openingText (t : String) : Bool := literalText t && t.toList.head? ≠ some '*'

/-- The text around a trace line's numbers is admissible. -/
def LineText.ok (t : LineText) : Bool := openingText t.before && literalText t.after

/-- What the spec asks of the open host parameters: lines whose only numbers are the octal ones and whose only leading
star is the mark's (45_host_interface.md R185, R188, R189), a diagnostic message for every fault (R191), RESULT_MAP(0) = 0
and a non-zero FAIL_CODE that no count 0 to 2048 maps to (R190, R191; 92_eei_decisions.md D36). -/
structure HostParams.ok (p : HostParams) : Prop where
  /-- LEADER, FIELD and DATA lines (R185) -/
  texts : p.leaderText.ok = true ∧ p.fieldText.ok = true ∧ p.dataText.ok = true ∧ literalText p.dataBetween = true
  /-- ADDR lines, if any (D38) -/
  addr : p.addrText.all LineText.ok = true
  /-- INVALID lines, if any (D38) -/
  invalid : p.invalidText.all openingText = true
  /-- map labels (R188, R189; D37) -/
  label : literalText p.labelSeparator = true ∧ p.labelPadding ≠ '\n' ∧
    (p.labelPadding = '0' ∨ p.labelPadding.isDigit = false)
  /-- a fault's message is not empty (R191) -/
  message : ∀ f info, f ≠ .none → p.diagnostic f info ≠ ""
  /-- no overlap is result 0 (R190) -/
  no_overlap : p.resultMap 0#12 = 0
  /-- the failure indicator is not 0 (R191) -/
  failure : p.failCode ≠ 0
  /-- and is distinct from every count's result (R191; D36) -/
  distinct : ∀ n : Addr, n.toNat ≤ 2048 → p.resultMap n ≠ p.failCode

/-- What the host gives its environment: the lines it prints, the lines of the error stream and its result code. -/
structure HostReport where
  /-- the printed lines, in order -/
  lines : List String
  /-- the lines written to the error stream (45_host_interface.md R191) -/
  errors : List String
  /-- the process's result code or failure indicator -/
  code : Nat
deriving DecidableEq, Repr

/-- A number's octal digits. -/
def octal (n : Nat) : List Char := Nat.toDigits 8 n

/-- A text padded on its left to at least `w` characters. -/
def padded (w : Nat) (c : Char) (t : List Char) : List Char := List.replicate (w - t.length) c ++ t

/-- A number in octal, zero-padded to at least `w` digits. -/
def octalText (w n : Nat) : String := String.ofList (padded w '0' (octal n))

/-- A trace address or value: octal, zero-padded to 4 digits (45_host_interface.md R185). -/
def octal4 (n : Nat) : String := octalText 4 n

/-- A text with what stands before and after it. -/
def LineText.around (t : LineText) (body : String) : String := t.before ++ body ++ t.after

/-- The trace line of a decode event: LEADER, FIELD and DATA events print one line each, their numbers in octal, with the
`*` prefix exactly on a DATA event whose mark is 1; whether ADDR and INVALID print lines is TRACE_FMT's
(45_host_interface.md R185; 92_eei_decisions.md D38). A REGION is no decode event. -/
def traceLine (p : HostParams) : Event → Option String
  | .leader n => some (p.leaderText.around (octalText p.leaderDigits n))
  | .field f => some (p.fieldText.around (octalText p.fieldDigits f.toNat))
  | .data a v mark =>
    some ((if mark then "*" else "") ++ p.dataText.around (octal4 a.toNat ++ p.dataBetween ++ octal4 v.toNat))
  | .addr a => p.addrText.map fun t => t.around (octal4 a.toNat)
  | .invalid => p.invalidText
  | .region _ _ => none

/-- The trace of a run's events: one line per decode event that prints one, with verboseTrace on
(45_host_interface.md R185). -/
def traceLines (p : HostParams) (o : HostOptions) (es : List Event) : List String :=
  if o.verboseTrace then es.filterMap (traceLine p) else []

/-- The line of a REGION event (45_host_interface.md R186); the other events are no region. -/
def regionLine (p : HostParams) : Event → Option String
  | .region start stop => some ("Overlap in area " ++ octalText p.regionDigits start.toNat ++ " to " ++
      octalText p.regionDigits stop.toNat)
  | .leader _ | .field _ | .addr _ | .data _ _ _ | .invalid => none

/-- The region lines of a run's events, unless silentReport is on (45_host_interface.md R186). -/
def regionLines (p : HostParams) (o : HostOptions) (es : List Event) : List String :=
  if o.silentReport then [] else es.filterMap (regionLine p)

/-- The character of a map class (45_host_interface.md R188, R189). -/
def classChar (p : HostParams) (c : BitVec 2) : Char :=
  if c = 0#2 then '.' else if c = 1#2 then 'X' else if c = 2#2 then 'O' else p.negCellChar

/-- The text of a map line's label: the number in octal, padded, and the separator (45_host_interface.md R188, R189;
LABEL_FMT, 92_eei_decisions.md D37; notes/assumptions/18.md). -/
def labelText (p : HostParams) (n : Nat) : String :=
  String.ofList (padded p.labelWidth p.labelPadding (octal n)) ++ p.labelSeparator

/-- The characters of line k of the compressed map: PAIR(j) for the 128 pairs from 128k (45_host_interface.md R188). -/
def compressedChars (p : HostParams) (m : Memory) (k : Nat) : List Char :=
  (List.range 128).map fun j =>
    classChar p (pairClass (m.read (2 * (128 * k + j))) (m.read (2 * (128 * k + j) + 1)))

/-- The compressed map: 16 lines, line k labelled with its first address 256k in octal (45_host_interface.md R188). -/
def compressedMap (p : HostParams) (m : Memory) : List String :=
  (List.range 16).map fun k => labelText p (256 * k) ++ String.ofList (compressedChars p m k)

/-- The characters of line k of the full map: CELL(a) for the 128 addresses from 128k (45_host_interface.md R189). -/
def fullChars (p : HostParams) (m : Memory) (k : Nat) : List Char :=
  (List.range 128).map fun j => classChar p (cellClass (m.read (128 * k + j)))

/-- The full map: 32 lines, line k labelled (128k)/64 = 2k in octal (45_host_interface.md R189). -/
def fullMap (p : HostParams) (m : Memory) : List String :=
  (List.range 32).map fun k => labelText p (2 * k) ++ String.ofList (fullChars p m k)

/-- The map view and its blank separator line, which stands when a map is selected, an overlap was found and output is
not suppressed (45_host_interface.md R187). -/
def mapLines (p : HostParams) (o : HostOptions) (s : State) : List String :=
  let blank := if 0 < s.ovl.toNat ∧ o.silentReport = false then [""] else []
  match o.mapMode with
  | .none => []
  | .compressed => blank ++ compressedMap p s.ut
  | .full => blank ++ fullMap p s.ut

/-- The report of a completed run with events `es` that its SCAN left in `s`: the trace, the region lines, the map, and
RESULT_MAP(OVL) (45_host_interface.md R185 to R190). DESIGN CHOICE: nothing stands on the error stream, of which R191
speaks for a faulted run only (notes/assumptions/22.md). -/
def completedReport (p : HostParams) (o : HostOptions) (es : List Event) (s : State) : HostReport where
  lines := traceLines p o es ++ regionLines p o es ++ mapLines p o s
  errors := []
  code := p.resultMap s.ovl

/-- The report of a faulted run with events `es` that fault entry left in `s`: no region line, no map and no count, the
diagnostic message on the error stream and FAIL_CODE (45_host_interface.md R186, R191). DESIGN CHOICE: the trace lines of
the decode events before the fault are printed, as R185 asks of every decode event, though the reason of
92_eei_decisions.md D6 says that a faulted run prints nothing (notes/assumptions/21.md). -/
def faultedReport (p : HostParams) (o : HostOptions) (es : List Event) (s : State) : HostReport where
  lines := traceLines p o es
  errors := [p.diagnostic s.fcode s.finfo]
  code := p.failCode

/-- The host's report of the run it starts by RESET in `s` (45_host_interface.md R181) and carries on for at most `k` of
its requests, up to the run's end (R193). A report is given only from that end: after the first SCAN in DONE, or from
fault entry. None before it, so END without SCAN reports no region and no OVL (R183; 93_implementation_defined.md
I18). The reading of the end is notes/assumptions/20.md's,
and that a faulted run's trace is printed notes/assumptions/21.md's. DESIGN CHOICE: a run that does not reach either end
has no report, and so its trace lines stand in none, whether the host asks nothing more of it or a RESET abandons it; the
run that RESET starts is reported from the state in which it is asked (notes/assumptions/23.md). -/
def hostReport (p : HostParams) (o : HostOptions) (k : Nat) (s : State) : Option HostReport :=
  let start := s.resetBlock
  match runToEnd k start with
  | (.notEnded, _) => none
  | (.completed, t) => some (completedReport p o (t.events.drop start.events.length) t)
  | (.faulted, t) => some (faultedReport p o (t.events.drop start.events.length) t)

end Sys2Proof.Machine
end

