-- ==== Sys2Proof/Certificates/Slice0/Obligations.lean ====
section
/-! DEFINITION. The statements for the provers. Each says what a rule of spec/ says of every state and every operand it
speaks of; its witnesses stand in Sys2Proof/Tests/Slice0.lean under the same name. -/

open Sys2Proof Sys2Proof.Machine

/-! ## Encoding -/

/-- DECODE AND ENCODE AGREE, whole table: every well-formed instruction, in every phase and sub-state that reads it, is
the instruction its own encoding decodes to (30_encoding.md R91 to R95, R98 to R101). -/
def Obligations.DecodeInvertsEncode : Prop :=
  ∀ (i : Instr) (p : Phase) (d : DState), i.wellFormed = true → i.readIn p d = true → decode p d (encode i) = i

/-- Every request decodes, in every phase and sub-state, to a well-formed instruction read there, whose encoding is that
request again, but for the in_byte of END, SCAN and the reserved op, which is encoded as 0: the model's choice,
notes/assumptions/15.md (30_encoding.md R97, R100, R101). -/
def Obligations.DecodingIsTotalAndWrittenBack : Prop :=
  ∀ (p : Phase) (d : DState) (r : Request),
    (decode p d r).wellFormed = true ∧ (decode p d r).readIn p d = true ∧
    encode (decode p d r) =
      match r with
      | .op code b => .op code (if code = 0b00#2 then b else 0#8)
      | .rst => .rst
      | .count a => .count a
      | .cell a => .cell a
      | .pair j => .pair j
      | .reg n => .reg n

/-- The complete first-byte decode map (30_encoding.md R98). -/
def Obligations.FirstByteDecodeMap : Prop :=
  ∀ b : Byte,
    (b.toNat ≤ 0x3F → decodeFirst b = .data (BitVec.ofNat 6 b.toNat)) ∧
    (0x40 ≤ b.toNat → b.toNat ≤ 0x7F → decodeFirst b = .addr (BitVec.ofNat 6 (b.toNat - 0x40))) ∧
    (b.toNat = 0x80 → decodeFirst b = .leader) ∧
    (0x81 ≤ b.toNat → b.toNat ≤ 0xBF → decodeFirst b = .invalid (BitVec.ofNat 6 (b.toNat - 0x80))) ∧
    (0xC0 ≤ b.toNat →
      decodeFirst b = .field (BitVec.ofNat 3 ((b.toNat - 0xC0) / 8)) (BitVec.ofNat 3 (b.toNat % 8)))

/-- A few words written out from the spec's encodings decode to the instruction they stand for: T1 and T2 of
95_test_vectors.md and the op codes of 30_encoding.md R100. -/
def Obligations.WordsDecodeAsWritten : Prop :=
  decode .decode .idle (.op 0b00#2 0b10000000#8) = .leader ∧
  decode .decode .idle (.op 0b00#2 0b11001000#8) = .field 1#3 0#3 ∧
  decode .decode .idle (.op 0b00#2 0b10100101#8) = .invalid 37#6 ∧
  decode .decode .idle (.op 0b00#2 0b01010101#8) = .addr 21#6 ∧
  decode .decode .waitAddr (.op 0b00#2 0b11000101#8) = .addrB2 3#2 5#6 ∧
  decode .decode .idle (.op 0b00#2 0b00001010#8) = .data 10#6 ∧
  decode .decode .waitData (.op 0b00#2 0b10000000#8) = .dataB2 2#2 0#6 ∧
  decode .done .idle (.op 0b00#2 0b00010010#8) = .byte 0x12#8 ∧
  decode .decode .idle (.op 0b01#2 0b00000000#8) = .endOp ∧
  decode .done .idle (.op 0b10#2 0b00000000#8) = .scan ∧
  decode .done .idle (.op 0b11#2 0b00000000#8) = .reservedOp

/-- The record encoder's round trip, with any bytes after it: decoding the bytes of a record gives the record back and
leaves the rest (30_encoding.md R90, R94, R99). -/
def Obligations.RecordEncodingRoundTrip : Prop :=
  ∀ (r : Record) (rest : List Byte), r.wellFormed = true → decodeRecord (encodeRecord r ++ rest) = .ok (r, rest)

/-! ## One step -/

/-- A STEP RUNS THE DECODED INSTRUCTION: where the host's next request is the encoding of a well-formed instruction that
is read in the block's phase and sub-state, the step is exec of it, with that one request taken from the host's; and for
any next request at all the step is exec of what it decodes to (40_record_decoder.md R120, R134). -/
def Obligations.StepRunsDecodedInstruction : Prop :=
  (∀ (i : Instr) (s : State) (rest : List Request), i.wellFormed = true → i.readIn s.phase s.dstate = true →
    s.pending = encode i :: rest → step s = exec i { s with pending := rest }) ∧
  (∀ (s : State) (r : Request) (rest : List Request), s.pending = r :: rest →
    step s = exec (decode s.phase s.dstate r) { s with pending := rest })

/-- With nothing asked the block is idle and all its state survives (60_exceptions.md R211; that an idle step exists is
the model's choice, notes/assumptions/8.md). -/
def Obligations.StepWithNothingAskedIsIdle : Prop :=
  ∀ s : State, s.pending = [] → step s = .next s

/-! ## Record bytes -/

/-- LEADER adds one to the run, saturating at 2^LCW - 1, and writes nothing else (40_record_decoder.md R121). -/
def Obligations.LeaderByteCountsSaturating : Prop :=
  ∀ s : State, s.phase = .decode → s.dstate = .idle →
    exec .leader s = .next { s with lcnt := if s.lcnt < 2 ^ s.cfg.lcw - 1 then s.lcnt + 1 else s.lcnt }

/-- FIELD reports a run in progress, then its own number, whatever its ignored bits, and writes nothing but the flushed
run (40_record_decoder.md R122, R123). -/
def Obligations.FieldReportsItsNumber : Prop :=
  ∀ (f x : BitVec 3) (s : State), s.phase = .decode → s.dstate = .idle →
    exec (.field f x) s =
      .next { s with lcnt := 0, events := s.events ++ leaderReport s.lcnt ++ [.field f] }

/-- INVALID reports a run in progress, then itself, raises no fault and writes nothing but the flushed run
(40_record_decoder.md R122, R124). -/
def Obligations.InvalidReportsItself : Prop :=
  ∀ (n : Half) (s : State), n ≠ 0#6 → s.phase = .decode → s.dstate = .idle →
    exec (.invalid n) s =
      .next { s with lcnt := 0, events := s.events ++ leaderReport s.lcnt ++ [.invalid] }

/-- The first byte of an AddressSet or a DataWrite reports a run in progress, holds its high half and waits; CUR, PEND
and the table keep their values (40_record_decoder.md R122, R125, R126). -/
def Obligations.FirstByteHoldsHighHalf : Prop :=
  ∀ (h : Half) (s : State), s.phase = .decode → s.dstate = .idle →
    exec (.addr h) s =
      .next { s with lcnt := 0, events := s.events ++ leaderReport s.lcnt, hold := h, dstate := .waitAddr } ∧
    exec (.data h) s =
      .next { s with lcnt := 0, events := s.events ++ leaderReport s.lcnt, hold := h, dstate := .waitData }

/-- The continuation of an AddressSet: the event, the cursor, PEND and IDLE, and nothing else, whatever its tag bits
(40_record_decoder.md R127). -/
def Obligations.AddrContinuationSetsCursor : Prop :=
  ∀ (t : BitVec 2) (l : Half) (s : State), s.phase = .decode → s.dstate = .waitAddr →
    exec (.addrB2 t l) s =
      .next { s with
        events := s.events ++ [.addr (BitVec.ofNat 12 (64 * s.hold.toNat + l.toNat))]
        cur := BitVec.ofNat 13 (64 * s.hold.toNat + l.toNat)
        pend := true
        dstate := .idle }

/-- The continuation of a DataWrite inside the table: the entry at CUR counts one more, saturating at UCW_MAX, every
other entry reads as before, the event carries the address, the value and PEND as it was, and ANYW, PEND, CUR and DSTATE
are written and nothing else, whatever its tag bits (40_record_decoder.md R128; 41_accumulator_scanner.md R150). -/
def Obligations.DataContinuationCountsAtCursor : Prop :=
  ∀ (t : BitVec 2) (l : Half) (s : State), s.phase = .decode → s.dstate = .waitData → s.cur.toNat ≤ 4095 →
    ∃ u : State, exec (.dataB2 t l) s = .next u ∧
      u = { s with
        ut := u.ut
        events := s.events ++
          [.data (BitVec.ofNat 12 s.cur.toNat) (BitVec.ofNat 12 (64 * s.hold.toNat + l.toNat)) s.pend]
        anyw := true
        pend := false
        cur := BitVec.ofNat 13 (s.cur.toNat + 1)
        dstate := .idle } ∧
      u.ut.read s.cur.toNat =
        (if s.ut.read s.cur.toNat < 2 ^ (s.cfg.ucw - 1) - 1 then s.ut.read s.cur.toNat + 1
          else s.ut.read s.cur.toNat) ∧
      ∀ a : Nat, a ≠ s.cur.toNat → u.ut.read a = s.ut.read a

/-- The continuation of a DataWrite at CUR = 4096 raises RANGE with FINFO 0x1000 and changes nothing else: no event, no
entry, and DSTATE stays WAIT_DATA (40_record_decoder.md R128; 60_exceptions.md R202, R204). -/
def Obligations.DataPastTheTableRaisesRange : Prop :=
  ∀ (t : BitVec 2) (l : Half) (s : State), s.phase = .decode → s.dstate = .waitData → s.cur = 4096#13 →
    exec (.dataB2 t l) s = .next { s with phase := .fault, fcode := .range, finfo := 0x1000#16 }

/-! ## BYTE -/

/-- BYTE at a record boundary, for every byte, by the ranges of the decode map (40_record_decoder.md R120 to R126). -/
def Obligations.ByteAtRecordBoundary : Prop :=
  ∀ (b : Byte) (s : State), s.phase = .decode → s.dstate = .idle →
    exec (.byte b) s = .next
      (if b.toNat = 0x80 then
        { s with lcnt := if s.lcnt < 2 ^ s.cfg.lcw - 1 then s.lcnt + 1 else s.lcnt }
      else if 0xC0 ≤ b.toNat then
        { s with
          lcnt := 0
          events := s.events ++ leaderReport s.lcnt ++ [.field (BitVec.ofNat 3 ((b.toNat - 0xC0) / 8))] }
      else if 0x81 ≤ b.toNat then
        { s with lcnt := 0, events := s.events ++ leaderReport s.lcnt ++ [.invalid] }
      else if 0x40 ≤ b.toNat then
        { s with
          lcnt := 0, events := s.events ++ leaderReport s.lcnt
          hold := BitVec.ofNat 6 (b.toNat - 0x40), dstate := .waitAddr }
      else
        { s with
          lcnt := 0, events := s.events ++ leaderReport s.lcnt
          hold := BitVec.ofNat 6 b.toNat, dstate := .waitData })

/-- A continuation byte is never classified: in a wait state BYTE completes the record with the byte's low six bits,
whatever its two high bits (30_encoding.md R95; 40_record_decoder.md R120, R127, R128). -/
def Obligations.ContinuationByteIsNeverClassified : Prop :=
  ∀ (b : Byte) (t : BitVec 2) (s : State), s.phase = .decode →
    (s.dstate = .waitAddr → exec (.byte b) s = exec (.addrB2 t (BitVec.ofNat 6 (b.toNat % 64))) s) ∧
    (s.dstate = .waitData → exec (.byte b) s = exec (.dataB2 t (BitVec.ofNat 6 (b.toNat % 64))) s)

/-- BYTE is what the decoder makes of its byte, in every state (40_record_decoder.md R120; notes/assumptions/6.md). -/
def Obligations.ByteIsItsDecoding : Prop :=
  ∀ (b : Byte) (s : State), exec (.byte b) s = exec (decode s.phase s.dstate (.op 0b00#2 b)) s

/-- A record instruction is its byte, in every state, the states that do not read it as that record among them
(30_encoding.md R103; 40_record_decoder.md R120; notes/assumptions/6.md). -/
def Obligations.RecordInstructionIsItsByte : Prop :=
  ∀ (i : Instr) (b : Byte) (s : State), i.wellFormed = true → encode i = .op 0b00#2 b → exec i s = exec (.byte b) s

/-! ## Faults -/

/-- The command faults, all five, with their FINFO and nothing else changed (60_exceptions.md R203, R204). That a record
instruction in DONE is a BYTE in DONE is the model's reading of R103 and R120, notes/assumptions/6.md. -/
def Obligations.CommandFaults : Prop :=
  ∀ s : State,
    (s.phase = .done →
      (∀ b : Byte, exec (.byte b) s = .next { s with phase := .fault, fcode := .cmd, finfo := 0x0010#16 }) ∧
      (∀ i : Instr, (∃ b : Byte, encode i = .op 0b00#2 b) →
        exec i s = .next { s with phase := .fault, fcode := .cmd, finfo := 0x0010#16 }) ∧
      exec .endOp s = .next { s with phase := .fault, fcode := .cmd, finfo := 0x0011#16 } ∧
      exec .reservedOp s = .next { s with phase := .fault, fcode := .cmd, finfo := 0x0013#16 }) ∧
    (s.phase = .decode →
      exec .scan s = .next { s with phase := .fault, fcode := .cmd, finfo := 0x0002#16 } ∧
      exec .reservedOp s = .next { s with phase := .fault, fcode := .cmd, finfo := 0x0003#16 })

/-- The reserved op code takes the command fault in DECODE and in DONE and is ignored in FAULT
(30_encoding.md R100; 60_exceptions.md R203, R205). -/
def Obligations.ReservedOpRaisesCommandFault : Prop :=
  ∀ s : State,
    exec .reservedOp s = .next
      (if s.phase = .fault then s
      else { s with phase := .fault, fcode := .cmd, finfo := if s.phase = .done then 0x0013#16 else 0x0003#16 })

/-- The fault state is terminal: there every instruction but RESET leaves the whole state as it is, but for what a read
port answers; RESET leaves it (60_exceptions.md R205). A record instruction is its byte there, notes/assumptions/6.md, and the
answer of a read is held as notes/assumptions/5.md says. -/
def Obligations.FaultStateIsTerminal : Prop :=
  ∀ (i : Instr) (s : State), s.phase = .fault →
    (i ≠ .reset → ∃ v : Option ReadValue, exec i s = .next { s with readOut := v } ∧
      ((∀ a, i ≠ .count a) → (∀ a, i ≠ .cell a) → (∀ j, i ≠ .pair j) → (∀ n, i ≠ .reg n) → v = s.readOut)) ∧
    (i = .reset → ∃ t : State, exec i s = .next t ∧ t.phase = .decode ∧ t.fcode = .none)

/-- Fault entry is precise: an instruction that takes the block into FAULT changes PHASE, FCODE and FINFO alone, but for
an END whose correction raises RANGE, which has flushed the leader run before (60_exceptions.md R204). -/
def Obligations.FaultEntryIsPrecise : Prop :=
  ∀ (i : Instr) (s t : State), s.phase ≠ .fault → exec i s = .next t → t.phase = .fault →
    t.fcode ≠ .none ∧
    (t = { s with phase := .fault, fcode := t.fcode, finfo := t.finfo } ∨
      (i = .endOp ∧ t.fcode = .range ∧ s.cfg.ck = true ∧
        t = { s with
          lcnt := 0, events := s.events ++ leaderReport s.lcnt
          phase := .fault, fcode := t.fcode, finfo := t.finfo }))

/-- Once in FAULT, any number of steps without a RESET asked keeps the whole state but the requests consumed and the
last read answered: the first fault's code and information stand (60_exceptions.md R205). Steps past the last request are
idle, and the requests and the answer are the model's own fields: notes/assumptions/3.md, 5.md and 8.md. -/
def Obligations.FirstFaultIsKept : Prop :=
  ∀ (k : Nat) (s : State), s.phase = .fault → (∀ r ∈ s.pending, isReset r = false) →
    ∃ t : State, Host.Core.run Sys2Proof.core k s = Host.Outcome.next t ∧
      t = { s with pending := s.pending.drop k, readOut := t.readOut }

/-! ## END -/

/-- END at a record boundary where no correction applies: a run in progress is reported and the stream has ended
(40_record_decoder.md R129). -/
def Obligations.EndWithoutCorrection : Prop :=
  ∀ s : State, s.phase = .decode → s.dstate = .idle → (s.cfg.ck = false ∨ s.anyw = false) →
    exec .endOp s = .next { s with lcnt := 0, events := s.events ++ leaderReport s.lcnt, phase := .done }

/-- END in checksummed mode after a DataWrite: the entry before the cursor loses one, every other entry reads as before,
and otherwise it is the END without correction (40_record_decoder.md R129; 41_accumulator_scanner.md R151). -/
def Obligations.EndCorrectsEntryBeforeCursor : Prop :=
  ∀ s : State, s.phase = .decode → s.dstate = .idle → s.cfg.ck = true → s.anyw = true →
    1 ≤ s.cur.toNat → s.cur.toNat ≤ 4096 →
    ∃ u : State, exec .endOp s = .next u ∧
      u = { s with ut := u.ut, lcnt := 0, events := s.events ++ leaderReport s.lcnt, phase := .done } ∧
      u.ut.read (s.cur.toNat - 1) = s.ut.read (s.cur.toNat - 1) - 1 ∧
      ∀ a : Nat, a ≠ s.cur.toNat - 1 → u.ut.read a = s.ut.read a

/-- END in checksummed mode after a DataWrite with CUR = 0: RANGE with FINFO 0xFFFF, the leader flush before it
standing, and no entry touched (41_accumulator_scanner.md R151; 60_exceptions.md R202, R204). -/
def Obligations.EndCorrectionBelowTheTableRaisesRange : Prop :=
  ∀ s : State, s.phase = .decode → s.dstate = .idle → s.cfg.ck = true → s.anyw = true → s.cur = 0#13 →
    exec .endOp s = .next { s with
      lcnt := 0, events := s.events ++ leaderReport s.lcnt
      phase := .fault, fcode := .range, finfo := 0xFFFF#16 }

/-- END while a record lacks its continuation: TRUNC with the record's first byte as FINFO, and nothing else changed,
whatever the mode, the flags and the cursor (40_record_decoder.md R129; 60_exceptions.md R201, R207). -/
def Obligations.EndInsideARecordRaisesTrunc : Prop :=
  ∀ s : State, s.phase = .decode →
    (s.dstate = .waitAddr →
      exec .endOp s =
        .next { s with phase := .fault, fcode := .trunc, finfo := BitVec.ofNat 16 (0x40 + s.hold.toNat) }) ∧
    (s.dstate = .waitData →
      exec .endOp s = .next { s with phase := .fault, fcode := .trunc, finfo := BitVec.ofNat 16 s.hold.toNat })

/-! ## SCAN -/

/-- SCAN in DONE reports the overlap regions: the REGION events are disjoint, strictly ascending, maximal runs of counts
above 1, every such index lies in one of them, and OVL is their number, at most 2048; nothing else changes
(41_accumulator_scanner.md R152, R153; 00_scope.md R12). The events are held as notes/assumptions/4.md says. -/
def Obligations.ScanReportsMaximalOverlapRegions : Prop :=
  ∀ s : State, s.phase = .done →
    ∃ rs : List (Nat × Nat),
      exec .scan s =
        .next { s with
          events := s.events ++ rs.map fun r => .region (BitVec.ofNat 12 r.1) (BitVec.ofNat 12 r.2)
          ovl := BitVec.ofNat 12 rs.length } ∧
      rs.length ≤ 2048 ∧
      rs.Pairwise (fun r r' => r.2 + 1 < r'.1) ∧
      (∀ r ∈ rs, r.1 ≤ r.2 ∧ r.2 ≤ 4095 ∧ (∀ i, r.1 ≤ i → i ≤ r.2 → 1 < s.ut.read i) ∧
        (r.1 = 0 ∨ s.ut.read (r.1 - 1) ≤ 1) ∧ (r.2 = 4095 ∨ s.ut.read (r.2 + 1) ≤ 1)) ∧
      ∀ i ≤ 4095, 1 < s.ut.read i → ∃ r ∈ rs, r.1 ≤ i ∧ i ≤ r.2

/-- Repeating SCAN in DONE repeats its result: `n + 1` scans report the same REGION sequence `n + 1` times and leave the
same OVL, the table and the phase as one leaves them (41_accumulator_scanner.md R154). -/
def Obligations.RepeatedScansRepeatTheResult : Prop :=
  ∀ (n : Nat) (s : State) (rest : List Request), s.phase = .done →
    s.pending = List.replicate (n + 1) (.op 0b10#2 0#8) ++ rest →
    ∃ (u t : State) (es : List Event),
      exec .scan s = .next u ∧ u.events = s.events ++ es ∧
      Host.Core.run Sys2Proof.core (n + 1) s = Host.Outcome.next t ∧
      t = { u with pending := rest, events := s.events ++ (List.replicate (n + 1) es).flatten }

/-- A scan's result depends on the table only through which counts are above 1, whatever the widths
(41_accumulator_scanner.md R160). -/
def Obligations.ScanDependsOnlyOnCountsAboveOne : Prop :=
  ∀ s s' t t' : State, s.phase = .done → s'.phase = .done →
    (∀ i < 4096, (1 < s.ut.read i ↔ 1 < s'.ut.read i)) →
    exec .scan s = .next t → exec .scan s' = .next t' →
    t.ovl = t'.ovl ∧ ∃ es : List Event, t.events = s.events ++ es ∧ t'.events = s'.events ++ es

/-! ## RESET -/

/-- RESET, in every state: every element at its reset value, no event, no fault, and the configuration as it was
(70_reset_and_hazards.md R230, R231). That the host's requests, the events already sent and the last read stay as they
were is the model's choice, notes/assumptions/3.md, 4.md and 5.md. -/
def Obligations.ResetPutsEveryElementAtItsResetValue : Prop :=
  ∀ s : State, ∃ t : State, exec .reset s = .next t ∧
    t = { s with
      phase := .decode, dstate := .idle, hold := 0#6, lcnt := 0, cur := 0#13, pend := false, anyw := false
      ut := t.ut, ovl := 0#12, fcode := .none, finfo := 0#16 } ∧
    ∀ a : Nat, t.ut.read a = 0

/-- The state after reset: every element of 10_state.md R30 at its reset value and every table entry reading 0. Nothing
is said of the fields that are no element of R30, whose values are the model's choice (notes/assumptions/1.md to
5.md). -/
def Obligations.ResetStateHasTheSpecsValues : Prop :=
  State.reset.AtReset ∧ ∀ a : Nat, State.reset.ut.read a = 0

/-! ## Read ports -/

/-- COUNT answers the entry and changes nothing else, in every phase (41_accumulator_scanner.md R155). -/
def Obligations.CountAnswersTheEntry : Prop :=
  ∀ (a : Addr) (s : State), exec (.count a) s = .next { s with readOut := some (.count (s.ut.read a.toNat)) }

/-- CELL answers the full-map class of the entry and changes nothing else, in every phase
(41_accumulator_scanner.md R156). -/
def Obligations.CellAnswersTheClass : Prop :=
  ∀ (a : Addr) (s : State),
    (2 ≤ s.ut.read a.toNat → exec (.cell a) s = .next { s with readOut := some (.cell 2#2) }) ∧
    (s.ut.read a.toNat = 1 → exec (.cell a) s = .next { s with readOut := some (.cell 1#2) }) ∧
    (s.ut.read a.toNat = 0 → exec (.cell a) s = .next { s with readOut := some (.cell 0#2) }) ∧
    (s.ut.read a.toNat < 0 → exec (.cell a) s = .next { s with readOut := some (.cell 3#2) })

/-- PAIR answers the compressed-map class of entries 2j and 2j+1, an overlap before a single use, and changes nothing
else, in every phase (41_accumulator_scanner.md R157). -/
def Obligations.PairAnswersTheClass : Prop :=
  ∀ (j : BitVec 11) (s : State) (c0 c1 : Int),
    s.ut.read (2 * j.toNat) = c0 → s.ut.read (2 * j.toNat + 1) = c1 →
    ((2 ≤ c0 ∨ 2 ≤ c1) → exec (.pair j) s = .next { s with readOut := some (.pair 2#2) }) ∧
    (c0 < 2 → c1 < 2 → (c0 = 1 ∨ c1 = 1) → exec (.pair j) s = .next { s with readOut := some (.pair 1#2) }) ∧
    (c0 = 0 → c1 = 0 → exec (.pair j) s = .next { s with readOut := some (.pair 0#2) }) ∧
    (c0 < 1 → c1 < 1 → (c0 < 0 ∨ c1 < 0) → exec (.pair j) s = .next { s with readOut := some (.pair 3#2) })

/-- REG answers the four status registers, field by field, reserved bits reading 0, and changes nothing else, in every
phase (10_state.md R31, R32, R40, R43; 41_accumulator_scanner.md R158). -/
def Obligations.RegAnswersTheStatusRegisters : Prop :=
  ∀ s : State,
    (∃ w : Word16, exec (.reg 0#2) s = .next { s with readOut := some (.reg w) } ∧
      w.toNat =
        (match s.phase with | .decode => 0 | .done => 1 | .fault => 2) +
        4 * (match s.fcode with | .none => 0 | .trunc => 1 | .range => 2 | .cmd => 3) +
        16 * (match s.dstate with | .idle => 0 | .waitAddr => 1 | .waitData => 2) +
        64 * (if s.pend then 1 else 0) + 128 * (if s.anyw then 1 else 0)) ∧
    (∃ w : Word16, exec (.reg 1#2) s = .next { s with readOut := some (.reg w) } ∧ w.toNat = s.cur.toNat) ∧
    (∃ w : Word16, exec (.reg 2#2) s = .next { s with readOut := some (.reg w) } ∧ w.toNat = s.ovl.toNat) ∧
    exec (.reg 3#2) s = .next { s with readOut := some (.reg s.finfo) }

/-- The level output `fault` is on exactly in PHASE FAULT, in every state that meets the invariants
(60_exceptions.md R209; 10_state.md R46 (d)). -/
def Obligations.FaultOutputShowsTheFaultPhase : Prop :=
  ∀ s : State, s.Invariant → (faultOutput s = true ↔ s.phase = .fault)

/-- The event port's layout: the kind, ev_p0, ev_p1 and ev_mark of every event, and ev_p0 in max(LCW, 12) bits for every
count that fits LCW bits (30_encoding.md R102). That ev_p0 is a number is notes/assumptions/19.md's. -/
def Obligations.EventPortLayout : Prop :=
  (∀ n : Nat, (eventKind (.leader n), eventP0 (.leader n), eventP1 (.leader n), eventMark (.leader n)) =
    (1#3, n, 0#12, false)) ∧
  (∀ f, (eventKind (.field f), eventP0 (.field f), eventP1 (.field f), eventMark (.field f)) =
    (2#3, f.toNat, 0#12, false)) ∧
  (∀ a, (eventKind (.addr a), eventP0 (.addr a), eventP1 (.addr a), eventMark (.addr a)) =
    (3#3, a.toNat, 0#12, false)) ∧
  (∀ a v m, (eventKind (.data a v m), eventP0 (.data a v m), eventP1 (.data a v m), eventMark (.data a v m)) =
    (4#3, a.toNat, v, m)) ∧
  (eventKind .invalid, eventP0 .invalid, eventP1 .invalid, eventMark .invalid) = (5#3, 0, 0#12, false) ∧
  (∀ a b, (eventKind (.region a b), eventP0 (.region a b), eventP1 (.region a b), eventMark (.region a b)) =
    (6#3, a.toNat, b, false)) ∧
  (∀ (lcw : Nat) (e : Event), (∀ n, e = .leader n → n < 2 ^ lcw) → eventP0 e < 2 ^ max lcw 12)

/-! ## Rules of the whole machine -/

/-- PHASE moves only as the spec says: from DECODE to DONE only by END, into FAULT only with a fault code, back to DECODE
only by RESET, and out of FAULT only by RESET (10_state.md R31; 60_exceptions.md R204, R205). -/
def Obligations.PhaseMovesOnlyAsTheSpecSays : Prop :=
  ∀ (i : Instr) (s t : State), exec i s = .next t →
    (s.phase ≠ .done → t.phase = .done → i = .endOp ∧ s.phase = .decode) ∧
    (s.phase ≠ .fault → t.phase = .fault → t.fcode ≠ .none) ∧
    (s.phase ≠ .decode → t.phase = .decode → i = .reset) ∧
    (s.phase = .fault → t.phase ≠ .fault → i = .reset)

/-- The frame table: which form of which instruction can change which element, in every phase and sub-state. The
configuration (10_state.md R42) and the host's requests (the model's own field, notes/assumptions/3.md) are changed by
nothing. Outside RESET, DSTATE leaves IDLE and HOLD is written only by the first byte of an AddressSet or a DataWrite, below
0x80; the table changes only at CUR as a DataWrite completes and only at CUR - 1 by the correction; every
other form leaves the whole table (40_record_decoder.md R132, R135). A record instruction stands for its byte
(notes/assumptions/6.md). -/
def Obligations.FrameTable : Prop :=
  ∀ (i : Instr) (s t : State), exec i s = .next t →
    t.cfg = s.cfg ∧ t.pending = s.pending ∧
    (i ≠ .reset →
      (t.phase ≠ s.phase →
        (i = .endOp ∧ s.phase = .decode ∧ s.dstate = .idle ∧ t.phase = .done) ∨
        (s.phase ≠ .fault ∧ t.phase = .fault)) ∧
      (t.dstate ≠ s.dstate → s.phase = .decode ∧ ∃ b : Byte, encode i = .op 0b00#2 b ∧
        (s.dstate = .idle → b.toNat < 0x80 ∧ t.dstate = if 0x40 ≤ b.toNat then .waitAddr else .waitData) ∧
        (s.dstate ≠ .idle → t.dstate = .idle)) ∧
      (t.hold ≠ s.hold → s.phase = .decode ∧ s.dstate = .idle ∧ ∃ b : Byte, encode i = .op 0b00#2 b ∧
        b.toNat < 0x80 ∧ t.dstate = if 0x40 ≤ b.toNat then .waitAddr else .waitData) ∧
      (t.lcnt ≠ s.lcnt → s.phase = .decode ∧ s.dstate = .idle ∧ (isByte (encode i) = true ∨ i = .endOp)) ∧
      (t.cur ≠ s.cur → s.phase = .decode ∧ s.dstate ≠ .idle ∧ isByte (encode i) = true ∧ t.dstate = .idle) ∧
      (t.pend ≠ s.pend → s.phase = .decode ∧ s.dstate ≠ .idle ∧ isByte (encode i) = true ∧ t.dstate = .idle) ∧
      (t.anyw ≠ s.anyw →
        s.phase = .decode ∧ s.dstate = .waitData ∧ isByte (encode i) = true ∧ t.dstate = .idle ∧ t.anyw = true) ∧
      (t.ovl ≠ s.ovl → i = .scan ∧ s.phase = .done) ∧
      (t.fcode ≠ s.fcode ∨ t.finfo ≠ s.finfo → s.phase ≠ .fault ∧ t.phase = .fault) ∧
      (s.countsAtCursor i → ∀ a : Nat, a ≠ s.cur.toNat → t.ut.read a = s.ut.read a) ∧
      (s.correctsBeforeCursor i → ∀ a : Nat, a ≠ s.cur.toNat - 1 → t.ut.read a = s.ut.read a) ∧
      (¬s.countsAtCursor i → ¬s.correctsBeforeCursor i → t.ut = s.ut))

/-- A usage counter changes only by a byte that completes an accumulated DataWrite at its address, by one up, or by the end-of-file correction
at CUR - 1, by one down, or by RESET (10_state.md R38; 41_accumulator_scanner.md R150, R151). -/
def Obligations.CountersChangeOnlyByWritesAndCorrection : Prop :=
  ∀ (i : Instr) (s t : State) (a : Nat), i ≠ .reset → exec i s = .next t →
    t.ut.read a = s.ut.read a ∨
    (t.ut.read a = s.ut.read a + 1 ∧ s.phase = .decode ∧ s.dstate = .waitData ∧ isByte (encode i) = true ∧
      t.phase = .decode ∧ t.dstate = .idle ∧ t.anyw = true ∧ a = s.cur.toNat) ∨
    (t.ut.read a = s.ut.read a - 1 ∧ i = .endOp ∧ s.phase = .decode ∧ s.cfg.ck = true ∧ s.anyw = true ∧
      s.dstate = .idle ∧ t.phase = .done ∧ a + 1 = s.cur.toNat)

/-- PEND is set only by the continuation of an AddressSet and cleared only by an accumulated DataWrite or RESET
(10_state.md R36). -/
def Obligations.PendingFlagRule : Prop :=
  ∀ (i : Instr) (s t : State), exec i s = .next t →
    (s.pend = false → t.pend = true → s.phase = .decode ∧ s.dstate = .waitAddr ∧ t.dstate = .idle) ∧
    (s.pend = true → t.pend = false →
      i = .reset ∨ (s.phase = .decode ∧ s.dstate = .waitData ∧ t.dstate = .idle ∧ t.anyw = true))

/-- Events are only ever appended, in the numbers the spec gives: none by RESET, the read ports and the reserved op, at
most one by END and by a byte that completes a record, at most two by a byte, and then LEADER before FIELD or INVALID at
a record boundary, at most 2048 by SCAN; and a LEADER event carries the count of the run it ends, at least 1
(40_record_decoder.md R130, R131). That RESET takes back no event is the model's choice, notes/assumptions/4.md. -/
def Obligations.EventsAreAppendedInTheSpecsNumbers : Prop :=
  ∀ (i : Instr) (s t : State), exec i s = .next t →
    ∃ es : List Event, t.events = s.events ++ es ∧ es.length ≤ 2048 ∧
      (∀ n : Nat, .leader n ∈ es → 0 < n ∧ n = s.lcnt) ∧
      (i ≠ .scan → es.length ≤ 2) ∧
      (i ≠ .scan → s.dstate ≠ .idle → es.length ≤ 1) ∧
      (i = .endOp → es.length ≤ 1) ∧
      (i ≠ .scan → es.length = 2 → s.dstate = .idle ∧
        ∃ n : Nat, 0 < n ∧ (es = [.leader n, .invalid] ∨ ∃ f, es = [.leader n, .field f])) ∧
      (i = .reset ∨ i = .reservedOp ∨ (∃ a, i = .count a) ∨ (∃ a, i = .cell a) ∨ (∃ j, i = .pair j) ∨
        (∃ n, i = .reg n) → es = [])

/-! ## Invariants -/

/-- Every state with every element at its reset value meets both invariants, whatever the configuration and the host's
side are (10_state.md R46; 70_reset_and_hazards.md R230). -/
def Obligations.ResetValuesMeetTheInvariants : Prop :=
  ∀ s : State, s.AtReset → s.Invariant ∧ s.Sized

/-- EVERY STEP KEEPS THE INVARIANTS of 10_state.md R46, (a) to (h), from every state that meets them. -/
def Obligations.StepKeepsTheInvariants : Prop :=
  ∀ s t : State, s.Invariant → step s = .next t → t.Invariant

/-- EVERY STEP KEEPS THE STATE TO ITS SIZES: the leader count in LCW bits, every count at most UCW_MAX, FINFO 0 without a
fault, and the table in its canonical form (00_scope.md R10, R11; 10_state.md R41; 20_memory.md R60, R74). The numbers
kept to their widths and the canonical form are the model's, notes/assumptions/14.md and 16.md. -/
def Obligations.StepKeepsTheSizes : Prop :=
  ∀ s t : State, s.Sized → step s = .next t → t.Sized

/-- The invariants hold in every state reached from RESET by any sequence of operations (10_state.md R46). -/
def Obligations.InvariantsHoldInEveryReachedState : Prop :=
  ∀ (k : Nat) (s u t : State), exec .reset s = .next u →
    Host.Core.run Sys2Proof.core k u = Host.Outcome.next t → t.Invariant

/-! ## Runs -/

/-- The block never stops: any number of steps, from any state and over any requests, ends in a next state. A step takes
exactly one request while any is asked, in order and none skipped (40_record_decoder.md R134; 10_state.md R44;
30_encoding.md R97; 60_exceptions.md R205). That a step with nothing asked is idle is the model's reading of R211,
notes/assumptions/8.md, and that a fault is a next state its reading of R205, notes/assumptions/12.md. -/
def Obligations.RunsNeverStopAndTakeOneRequestEach : Prop :=
  ∀ (k : Nat) (s : State), ∃ t : State, Host.Core.run Sys2Proof.core k s = Host.Outcome.next t ∧
    t.pending = s.pending.drop k ∧ t.cfg = s.cfg

/-- A leader run is reported once, when a byte other than 0x80 ends it, with the number of its bytes, at most LCNT_MAX,
before the event of that byte (10_state.md R34; 40_record_decoder.md R121, R122). -/
def Obligations.LeaderRunIsReportedOnce : Prop :=
  ∀ (n : Nat) (b : Byte) (rest : List Request) (s : State), s.cfg.wf → 1 ≤ n → b ≠ 0x80#8 →
    s.phase = .decode → s.dstate = .idle → s.lcnt = 0 →
    s.pending = (leaderBytes n).map byteRequest ++ byteRequest b :: rest →
    ∃ t : State, Host.Core.run Sys2Proof.core (n + 1) s = Host.Outcome.next t ∧ t.pending = rest ∧ t.lcnt = 0 ∧
      t.ut = s.ut ∧ t.cur = s.cur ∧ t.pend = s.pend ∧
      t.events = s.events ++ .leader (min n (2 ^ s.cfg.lcw - 1)) ::
        (if 0xC0 ≤ b.toNat then [.field (BitVec.ofNat 3 ((b.toNat - 0xC0) / 8))]
          else if 0x80 ≤ b.toNat then [.invalid] else [])

/-- WORDS: an AddressSet and the DataWrites after it land at consecutive addresses from it, each counted once, the first
marked, and the cursor ends after the last, as far as the table reaches (30_encoding.md R99, R104;
40_record_decoder.md R127, R128). -/
def Obligations.WordsLandAtConsecutiveAddresses : Prop :=
  ∀ (a : Addr) (vs : List Addr) (rest : List Request) (s : State),
    s.phase = .decode → s.dstate = .idle → a.toNat + vs.length ≤ 4096 →
    s.pending = (wordsBytes a vs).map byteRequest ++ rest →
    ∃ t : State, Host.Core.run Sys2Proof.core (2 + 2 * vs.length) s = Host.Outcome.next t ∧
      t.pending = rest ∧ t.phase = .decode ∧ t.dstate = .idle ∧ t.lcnt = 0 ∧
      t.cur.toNat = a.toNat + vs.length ∧ t.pend = vs.isEmpty ∧ t.anyw = (s.anyw || !vs.isEmpty) ∧
      t.events = s.events ++ leaderReport s.lcnt ++ .addr a ::
        vs.zipIdx.map (fun p => .data (BitVec.ofNat 12 (a.toNat + p.2)) p.1 (p.2 = 0)) ∧
      ∀ x : Nat, t.ut.read x =
        if a.toNat ≤ x ∧ x < a.toNat + vs.length ∧ s.ut.read x < 2 ^ (s.cfg.ucw - 1) - 1 then s.ut.read x + 1
        else s.ut.read x

/-- THE SUM LAW: for every byte stream decoded whole from reset in which no entry saturates, the counts of the table
after END add up to the number of DATA events, less one if the correction ran (41_accumulator_scanner.md R159). -/
def Obligations.TableSumIsTheNumberOfDataWrites : Prop :=
  ∀ (bs : List Byte) (rest : List Request) (s t : State), s.AtReset →
    s.pending = bs.map byteRequest ++ endRequest :: rest →
    neverSaturates bs.length s = true →
    Host.Core.run Sys2Proof.core (bs.length + 1) s = Host.Outcome.next t → t.phase = .done →
    tableSum t.ut =
      ((dataCount t.events : Int) - dataCount s.events) -
        (if s.cfg.ck = true ∧ dataCount s.events < dataCount t.events then 1 else 0)

/-- THE VALUES OF DATAWRITES NEVER REACH THE TABLE: two runs from one state over record streams that differ only in the
values of their DataWrites, with any requests after, end in the same state but for the stale held half and the values in
the DATA events (41_accumulator_scanner.md R161). -/
def Obligations.DataValuesNeverReachTheTable : Prop :=
  ∀ (rs rs' : List Record) (rest : List Request) (s t t' : State), s.dstate = .idle →
    List.Forall₂ sameButValue rs rs' →
    s.pending = (rs.flatMap encodeRecord).map byteRequest ++ rest →
    Host.Core.run Sys2Proof.core s.pending.length s = Host.Outcome.next t →
    Host.Core.run Sys2Proof.core s.pending.length
      { s with pending := (rs'.flatMap encodeRecord).map byteRequest ++ rest } = Host.Outcome.next t' →
    t' = { t with hold := t'.hold, events := t'.events } ∧
    t'.events.map Event.withoutValue = t.events.map Event.withoutValue

/-- THE BOOT ORDER ENDS THE RUN: from reset, every byte stream followed by END and SCAN ends either as a completed run, in
DONE without a fault, or as a faulted run with a truncation or range fault, never with a command fault
(70_reset_and_hazards.md R233; 45_host_interface.md R193). That the end is read from PHASE and the request is the model's
reading, notes/assumptions/20.md. -/
def Obligations.BootOrderEndsTheRun : Prop :=
  ∀ (bs : List Byte) (rest : List Request) (s : State), s.AtReset →
    s.pending = bs.map byteRequest ++ endRequest :: scanRequest :: rest →
    (∃ t : State, runToEnd (bs.length + 2) s = (.completed, t) ∧ t.phase = .done ∧ t.fcode = .none) ∨
    (∃ t : State, runToEnd (bs.length + 2) s = (.faulted, t) ∧ t.phase = .fault ∧
      (t.fcode = .trunc ∨ t.fcode = .range))

/-! ## The host's report -/

/-- A faulted run is reported by a diagnostic message on the error stream and the failure indicator, which is not 0 and
no completed run's result code, with no region, map or count (45_host_interface.md R186, R190, R191). That the trace lines
of its decode events are printed all the same is the model's choice, notes/assumptions/21.md, and that the message is one
line made from FCODE and FINFO is too, notes/assumptions/22.md. The end of the run is notes/assumptions/20.md's. -/
def Obligations.FaultedRunReportsNoCount : Prop :=
  ∀ (p : HostParams) (o : HostOptions) (k : Nat) (s t : State), p.ok → runToEnd k s.resetBlock = (.faulted, t) →
    (∃ es : List Event, t.events = s.events ++ es ∧
      hostReport p o k s =
        some {
          lines := if o.verboseTrace then es.filterMap (traceLine p) else []
          errors := [p.diagnostic t.fcode t.finfo]
          code := p.failCode }) ∧
    p.diagnostic t.fcode t.finfo ≠ "" ∧ p.failCode ≠ 0 ∧
    ∀ (o' : HostOptions) (k' : Nat) (s' u : State) (r : HostReport),
      runToEnd k' s'.resetBlock = (.completed, u) → hostReport p o' k' s' = some r → r.code ≠ p.failCode

/-- The maps show the whole table in order. The full map is 32 lines, line k the label 2k in octal and then exactly 128
characters, those of the addresses from 128k; the compressed map is 16 lines, line k the label 256k in octal and then
exactly 128 characters, those of the pairs from 128k, an overlap before a single use
(45_host_interface.md R188, R189; 41_accumulator_scanner.md R156, R157). That a label stands before the characters and is
padded on its left is the model's choice, notes/assumptions/18.md. -/
def Obligations.MapsShowTheWholeTable : Prop :=
  ∀ (p : HostParams) (m : Memory),
    (fullMap p m).length = 32 ∧
    (∀ k < 32, ∃ cs : List Char,
      (fullMap p m)[k]? =
        some (String.ofList (padded p.labelWidth p.labelPadding (Nat.toDigits 8 (2 * k))) ++ p.labelSeparator ++
          String.ofList cs) ∧
      cs.length = 128 ∧
      ∀ j < 128, cs[j]? = some
        (if 2 ≤ m.read (128 * k + j) then 'O'
        else if m.read (128 * k + j) = 1 then 'X'
        else if m.read (128 * k + j) = 0 then '.'
        else p.negCellChar)) ∧
    (compressedMap p m).length = 16 ∧
    (∀ k < 16, ∃ cs : List Char,
      (compressedMap p m)[k]? =
        some (String.ofList (padded p.labelWidth p.labelPadding (Nat.toDigits 8 (256 * k))) ++ p.labelSeparator ++
          String.ofList cs) ∧
      cs.length = 128 ∧
      ∀ j < 128, cs[j]? = some
        (if 2 ≤ m.read (256 * k + 2 * j) ∨ 2 ≤ m.read (256 * k + 2 * j + 1) then 'O'
        else if m.read (256 * k + 2 * j) = 1 ∨ m.read (256 * k + 2 * j + 1) = 1 then 'X'
        else if m.read (256 * k + 2 * j) = 0 ∧ m.read (256 * k + 2 * j + 1) = 0 then '.'
        else p.negCellChar))

/-- The trace prints its numbers in octal and the star exactly where the mark is 1. LEADER, FIELD and DATA events have a
line, a REGION none. A LEADER line holds the run's count, a FIELD line the field's number, a printed ADDR line the address
and a DATA line the address and then the value, each in octal, addresses and values in exactly 4 digits, with no other
digit on the line. A line begins with `*` exactly when it is that of a DATA event with mark = 1
(45_host_interface.md R185; 40_record_decoder.md R128). The texts around the numbers are those of HostParams.ok, and
address before value on a line with nothing else in octal is the model's choice, notes/assumptions/18.md. -/
def Obligations.TraceLinesAreOctalAndStarredByTheMark : Prop :=
  ∀ p : HostParams, p.ok →
    (∀ a b, traceLine p (.region a b) = none) ∧
    (∀ (e : Event) (line : String), traceLine p e = some line →
      (line.toList.head? = some '*' ↔ ∃ a v, e = .data a v true)) ∧
    (∀ n : Nat, ∃ (before after : String) (ds : List Char),
      traceLine p (.leader n) = some (before ++ String.ofList ds ++ after) ∧
      (before ++ after).toList.all (fun c => !c.isDigit) = true ∧ printsOctal ds n) ∧
    (∀ f : BitVec 3, ∃ (before after : String) (ds : List Char),
      traceLine p (.field f) = some (before ++ String.ofList ds ++ after) ∧
      (before ++ after).toList.all (fun c => !c.isDigit) = true ∧ printsOctal ds f.toNat) ∧
    (∀ (a : Addr) (line : String), traceLine p (.addr a) = some line →
      ∃ (before after : String) (ds : List Char), line = before ++ String.ofList ds ++ after ∧
        (before ++ after).toList.all (fun c => !c.isDigit) = true ∧ ds.length = 4 ∧ printsOctal ds a.toNat) ∧
    ∀ (a v : Addr) (mark : Bool), ∃ (before between after : String) (as vs : List Char),
      traceLine p (.data a v mark) =
        some ((if mark then "*" else "") ++ before ++ String.ofList as ++ between ++ String.ofList vs ++ after) ∧
      (before ++ between ++ after).toList.all (fun c => !c.isDigit) = true ∧
      as.length = 4 ∧ vs.length = 4 ∧ printsOctal as a.toNat ∧ printsOctal vs v.toNat

/-- No result is reported before the SCAN: where none of the requests carried out is SCAN, END among them or not, the host
reports nothing, or the failure of a run that faulted (45_host_interface.md R183, R193; 93_implementation_defined.md
I18). That the trace lines of a run that has not ended are not reported either is the model's choice,
notes/assumptions/23.md; the end of the run is notes/assumptions/20.md's. -/
def Obligations.NoResultIsReportedBeforeTheScan : Prop :=
  ∀ (p : HostParams) (o : HostOptions) (k : Nat) (s : State), (∀ r ∈ s.pending.take k, isScan r = false) →
    hostReport p o k s = none ∨
    ∃ t : State, runToEnd k s.resetBlock = (.faulted, t) ∧ t.phase = .fault ∧
      ∀ r : HostReport, hostReport p o k s = some r → r.code = p.failCode

/-- A completed run is reported whole: its trace, a line for each REGION event of its SCAN unless silent, a blank line
exactly when a map is selected, an overlap was found and output is not silent, the map, nothing on the error stream, and
RESULT_MAP of OVL, which is the number of those REGION events and gives 0 for none (45_host_interface.md R185, R186, R187,
R190, R193). That nothing stands on the error stream (the clause on `errors`) is the model's choice, since R191 speaks of
a faulted run only: notes/assumptions/22.md. That the trace stands before the regions, and what `p.ok` asks of the texts,
are the model's choice too, notes/assumptions/18.md; the end of the run is notes/assumptions/20.md's. -/
def Obligations.CompletedRunIsReportedWhole : Prop :=
  ∀ (p : HostParams) (o : HostOptions) (k : Nat) (s t : State), p.ok → runToEnd k s.resetBlock = (.completed, t) →
    ∃ (es : List Event) (rs : List (Addr × Addr)),
      t.events = s.events ++ es ++ rs.map (fun r => .region r.1 r.2) ∧
      (∀ a b : Addr, .region a b ∉ es) ∧
      t.ovl.toNat = rs.length ∧
      (rs = [] → p.resultMap t.ovl = 0) ∧
      hostReport p o k s =
        some {
          lines :=
            (if o.verboseTrace then es.filterMap (traceLine p) else []) ++
            (if o.silentReport then []
              else rs.map fun r =>
                "Overlap in area " ++ octalText p.regionDigits r.1.toNat ++ " to " ++
                  octalText p.regionDigits r.2.toNat) ++
            (if o.mapMode ≠ .none ∧ rs ≠ [] ∧ o.silentReport = false then [""] else []) ++
            (match o.mapMode with
              | .none => []
              | .compressed => compressedMap p t.ut
              | .full => fullMap p t.ut)
          errors := []
          code := p.resultMap t.ovl }

/-- A report is of one run, the one its RESET starts: it depends on the configuration and the requests after that RESET
alone, so on nothing of a run before it; and where a RESET is asked before the run has ended, the run is never reported,
however many requests are carried out (00_scope.md R14; 45_host_interface.md R193). That such a run's trace lines stand in
no report is the model's choice, notes/assumptions/23.md; the end of the run is notes/assumptions/20.md's. -/
def Obligations.ReportIsOfTheRunItsResetStarts : Prop :=
  ∀ (p : HostParams) (o : HostOptions) (k : Nat) (s : State),
    (∀ s' : State, s'.cfg = s.cfg → s'.pending = s.pending → hostReport p o k s' = hostReport p o k s) ∧
    ∀ (before rest : List Request), s.pending = before ++ .rst :: rest →
      hostReport p o before.length s = none → hostReport p o k s = none
end

