-- ==== Sys2Proof/Laws/Memory.lean ====
section
/-! SUPPORT. The laws of the usage table: a read after a write, and the canonical form, which every table operation
keeps and which makes tables that read alike equal. -/

namespace Sys2Proof.Machine

@[simp] theorem Memory.read_nil (i : Nat) : Memory.read [] i = 0 := rfl

theorem Memory.read_cons (k : Nat) (v : Int) (m : Memory) (i : Nat) :
    Memory.read ((k, v) :: m) i = if k = i then v else Memory.read m i := rfl

@[simp] theorem Memory.read_erase_same (m : Memory) (i : Nat) : (m.erase i).read i = 0 := by
  induction m with
  | nil => rfl
  | cons e m ih =>
    obtain ⟨k, v⟩ := e
    by_cases h : k = i
    · simpa [Memory.erase, h] using ih
    · simpa [Memory.erase, h, Memory.read_cons] using ih

theorem Memory.read_erase_other (m : Memory) {i j : Nat} (hj : j ≠ i) : (m.erase i).read j = m.read j := by
  induction m with
  | nil => rfl
  | cons e m ih =>
    obtain ⟨k, v⟩ := e
    by_cases h : k = i
    · subst h
      simpa [Memory.erase, Memory.read_cons, hj.symm] using ih
    · have : Memory.erase ((k, v) :: m) i = (k, v) :: Memory.erase m i := by simp [Memory.erase, h]
      rw [this, Memory.read_cons, Memory.read_cons, ih]

/-- Placing a count into a table that does not list its index adds just that count. -/
theorem Memory.read_place (m : Memory) (i : Nat) (v : Int) (h : ∀ e ∈ m, e.1 ≠ i) (j : Nat) :
    (Memory.place i v m).read j = if i = j then v else m.read j := by
  induction m with
  | nil => rfl
  | cons e m ih =>
    obtain ⟨k, w⟩ := e
    have hk : k ≠ i := h (k, w) (by simp)
    have ih := ih fun e he => h e (by simp [he])
    by_cases hlt : i < k
    · simp [Memory.place, hlt, Memory.read_cons]
    · simp only [Memory.place, hlt, if_false, Memory.read_cons, ih]
      by_cases hkj : k = j
      · subst hkj; simp [hk.symm]
      · simp [hkj]

theorem Memory.erase_lists (m : Memory) (i : Nat) : ∀ e ∈ m.erase i, e.1 ≠ i := by
  intro e he
  have := List.mem_filter.1 he
  simpa using this.2

/-- All a write does, on any table: the written entry reads the written count, every other entry reads as before. -/
theorem Memory.read_write (m : Memory) (i : Nat) (v : Int) (j : Nat) :
    (m.write i v).read j = if i = j then v else m.read j := by
  by_cases hv : v = Memory.blank
  · by_cases hij : i = j
    · subst hij; subst hv; simp [Memory.write, Memory.blank]
    · simp [Memory.write, hv, hij, Memory.read_erase_other m (Ne.symm hij)]
  · rw [Memory.write, if_neg hv, Memory.read_place _ _ _ (Memory.erase_lists m i)]
    by_cases hij : i = j
    · simp [hij]
    · simp [hij, Memory.read_erase_other m (Ne.symm hij)]

@[simp] theorem Memory.read_write_same (m : Memory) (i : Nat) (v : Int) : (m.write i v).read i = v := by
  simp [Memory.read_write]

theorem Memory.read_write_other (m : Memory) {i j : Nat} (v : Int) (h : i ≠ j) :
    (m.write i v).read j = m.read j := by
  simp [Memory.read_write, h]

/-! ### The canonical form -/

@[simp] theorem Memory.wf_nil : Memory.wf [] = true := rfl

theorem Memory.wfFrom_cons (lo k : Nat) (v : Int) (m : Memory) :
    Memory.wfFrom lo ((k, v) :: m) = true ↔ lo ≤ k ∧ k < 4096 ∧ v ≠ 0 ∧ Memory.wfFrom (k + 1) m = true := by
  have hv : (decide (v ≠ Memory.blank) = true) ↔ v ≠ 0 := decide_eq_true_iff
  simp only [Memory.wfFrom, Bool.and_eq_true, decide_eq_true_eq, hv, and_assoc]

theorem Memory.wfFrom_mono {lo lo' : Nat} (h : lo' ≤ lo) {m : Memory} (hm : Memory.wfFrom lo m = true) :
    Memory.wfFrom lo' m = true := by
  cases m with
  | nil => rfl
  | cons e m =>
    obtain ⟨k, v⟩ := e
    rw [Memory.wfFrom_cons] at hm ⊢
    exact ⟨h.trans hm.1, hm.2⟩

theorem Memory.wfFrom_erase (i : Nat) (m : Memory) : ∀ lo, Memory.wfFrom lo m = true →
    Memory.wfFrom lo (m.erase i) = true := by
  induction m with
  | nil => intro lo _; rfl
  | cons e m ih =>
    obtain ⟨k, v⟩ := e
    intro lo hm
    rw [Memory.wfFrom_cons] at hm
    by_cases h : k = i
    · have := Memory.wfFrom_mono (lo' := lo) (by omega) (ih _ hm.2.2.2)
      simpa [Memory.erase, h] using this
    · have : Memory.erase ((k, v) :: m) i = (k, v) :: Memory.erase m i := by simp [Memory.erase, h]
      rw [this, Memory.wfFrom_cons]
      exact ⟨hm.1, hm.2.1, hm.2.2.1, ih _ hm.2.2.2⟩

theorem Memory.wfFrom_place {i : Nat} (hi : i < 4096) {v : Int} (hv : v ≠ 0) (m : Memory) :
    ∀ lo, lo ≤ i → (∀ e ∈ m, e.1 ≠ i) → Memory.wfFrom lo m = true → Memory.wfFrom lo (Memory.place i v m) = true := by
  induction m with
  | nil => intro lo hlo _ _; exact (Memory.wfFrom_cons _ _ _ _).2 ⟨hlo, hi, hv, rfl⟩
  | cons e m ih =>
    obtain ⟨k, w⟩ := e
    intro lo hlo hne hm
    have hk : k ≠ i := hne (k, w) (by simp)
    rw [Memory.wfFrom_cons] at hm
    by_cases hlt : i < k
    · rw [Memory.place, if_pos hlt, Memory.wfFrom_cons, Memory.wfFrom_cons]
      exact ⟨hlo, hi, hv, by omega, hm.2⟩
    · rw [Memory.place, if_neg hlt, Memory.wfFrom_cons]
      exact ⟨hm.1, hm.2.1, hm.2.2.1, ih _ (by omega) (fun e he => hne e (by simp [he])) hm.2.2.2⟩

/-- A write inside the table keeps the canonical form. -/
theorem Memory.wf_write {m : Memory} (hm : m.wf = true) {i : Nat} (hi : i < 4096) (v : Int) :
    (m.write i v).wf = true := by
  have he := Memory.wfFrom_erase i m 0 hm
  by_cases hv : v = Memory.blank
  · rw [Memory.write, if_pos hv]; exact he
  · rw [Memory.write, if_neg hv]
    exact Memory.wfFrom_place hi hv _ 0 (Nat.zero_le i) (Memory.erase_lists m i) he

theorem Memory.read_below {lo : Nat} {m : Memory} (hm : Memory.wfFrom lo m = true) {i : Nat} (hi : i < lo) :
    m.read i = 0 := by
  induction m generalizing lo with
  | nil => rfl
  | cons e m ih =>
    obtain ⟨k, v⟩ := e
    rw [Memory.wfFrom_cons] at hm
    have hk : k ≠ i := by omega
    rw [Memory.read_cons, if_neg hk]
    exact ih hm.2.2.2 (by omega)

/-- Canonical tables that read alike are equal data. -/
theorem Memory.eq_of_read_eq (m : Memory) : ∀ (m' : Memory) (lo : Nat), Memory.wfFrom lo m = true →
    Memory.wfFrom lo m' = true → (∀ i, m.read i = m'.read i) → m = m' := by
  induction m with
  | nil =>
    intro m' lo _ hm' h
    cases m' with
    | nil => rfl
    | cons e m' =>
      obtain ⟨k, v⟩ := e
      have := h k
      rw [Memory.wfFrom_cons] at hm'
      simp [Memory.read_cons] at this
      exact absurd this.symm hm'.2.2.1
  | cons e m ih =>
    obtain ⟨k, v⟩ := e
    intro m' lo hm hm' h
    rw [Memory.wfFrom_cons] at hm
    cases m' with
    | nil =>
      have := h k
      simp [Memory.read_cons] at this
      exact absurd this hm.2.2.1
    | cons e' m' =>
      obtain ⟨k', v'⟩ := e'
      rw [Memory.wfFrom_cons] at hm'
      have hk : k = k' := by
        rcases Nat.lt_trichotomy k k' with hlt | heq | hgt
        · have := h k
          have hb : Memory.read m' k = 0 := Memory.read_below hm'.2.2.2 (by omega)
          simp [Memory.read_cons, hlt.ne', hb] at this
          exact absurd this hm.2.2.1
        · exact heq
        · have := h k'
          have hb : Memory.read m k' = 0 := Memory.read_below hm.2.2.2 (by omega)
          simp [Memory.read_cons, hgt.ne', hb] at this
          exact absurd this.symm hm'.2.2.1
      subst hk
      have hv : v = v' := by simpa [Memory.read_cons] using h k
      subst hv
      have hrest : ∀ i, Memory.read m i = Memory.read m' i := by
        intro i
        by_cases hi : k = i
        · subst hi
          rw [Memory.read_below hm.2.2.2 (Nat.lt_succ_self _), Memory.read_below hm'.2.2.2 (Nat.lt_succ_self _)]
        · have := h i
          simpa [Memory.read_cons, hi] using this
      rw [ih m' (k + 1) hm.2.2.2 hm'.2.2.2 hrest]

end Sys2Proof.Machine
end

