-- ==== Sys2Proof/Laws/State.lean ====
section
/-! SUPPORT. One lemma per field of State for each named update of it, so that no proof unfolds a record update. -/

namespace Sys2Proof.Machine

variable (s : State)

/-! ### emit -/

@[simp] theorem State.emit_phase (e : Event) : (s.emit e).phase = s.phase := rfl
@[simp] theorem State.emit_dstate (e : Event) : (s.emit e).dstate = s.dstate := rfl
@[simp] theorem State.emit_hold (e : Event) : (s.emit e).hold = s.hold := rfl
@[simp] theorem State.emit_lcnt (e : Event) : (s.emit e).lcnt = s.lcnt := rfl
@[simp] theorem State.emit_cur (e : Event) : (s.emit e).cur = s.cur := rfl
@[simp] theorem State.emit_pend (e : Event) : (s.emit e).pend = s.pend := rfl
@[simp] theorem State.emit_anyw (e : Event) : (s.emit e).anyw = s.anyw := rfl
@[simp] theorem State.emit_ut (e : Event) : (s.emit e).ut = s.ut := rfl
@[simp] theorem State.emit_ovl (e : Event) : (s.emit e).ovl = s.ovl := rfl
@[simp] theorem State.emit_fcode (e : Event) : (s.emit e).fcode = s.fcode := rfl
@[simp] theorem State.emit_finfo (e : Event) : (s.emit e).finfo = s.finfo := rfl
@[simp] theorem State.emit_cfg (e : Event) : (s.emit e).cfg = s.cfg := rfl
@[simp] theorem State.emit_pending (e : Event) : (s.emit e).pending = s.pending := rfl
@[simp] theorem State.emit_events (e : Event) : (s.emit e).events = s.events ++ [e] := rfl
@[simp] theorem State.emit_readOut (e : Event) : (s.emit e).readOut = s.readOut := rfl

/-! ### raise -/

@[simp] theorem State.raise_phase (f : FaultCode) (info : Word16) : (s.raise f info).phase = .fault := rfl
@[simp] theorem State.raise_dstate (f : FaultCode) (info : Word16) : (s.raise f info).dstate = s.dstate := rfl
@[simp] theorem State.raise_hold (f : FaultCode) (info : Word16) : (s.raise f info).hold = s.hold := rfl
@[simp] theorem State.raise_lcnt (f : FaultCode) (info : Word16) : (s.raise f info).lcnt = s.lcnt := rfl
@[simp] theorem State.raise_cur (f : FaultCode) (info : Word16) : (s.raise f info).cur = s.cur := rfl
@[simp] theorem State.raise_pend (f : FaultCode) (info : Word16) : (s.raise f info).pend = s.pend := rfl
@[simp] theorem State.raise_anyw (f : FaultCode) (info : Word16) : (s.raise f info).anyw = s.anyw := rfl
@[simp] theorem State.raise_ut (f : FaultCode) (info : Word16) : (s.raise f info).ut = s.ut := rfl
@[simp] theorem State.raise_ovl (f : FaultCode) (info : Word16) : (s.raise f info).ovl = s.ovl := rfl
@[simp] theorem State.raise_fcode (f : FaultCode) (info : Word16) : (s.raise f info).fcode = f := rfl
@[simp] theorem State.raise_finfo (f : FaultCode) (info : Word16) : (s.raise f info).finfo = info := rfl
@[simp] theorem State.raise_cfg (f : FaultCode) (info : Word16) : (s.raise f info).cfg = s.cfg := rfl
@[simp] theorem State.raise_pending (f : FaultCode) (info : Word16) : (s.raise f info).pending = s.pending := rfl
@[simp] theorem State.raise_events (f : FaultCode) (info : Word16) : (s.raise f info).events = s.events := rfl
@[simp] theorem State.raise_readOut (f : FaultCode) (info : Word16) : (s.raise f info).readOut = s.readOut := rfl

/-! ### answer -/

@[simp] theorem State.answer_phase (v : ReadValue) : (s.answer v).phase = s.phase := rfl
@[simp] theorem State.answer_dstate (v : ReadValue) : (s.answer v).dstate = s.dstate := rfl
@[simp] theorem State.answer_hold (v : ReadValue) : (s.answer v).hold = s.hold := rfl
@[simp] theorem State.answer_lcnt (v : ReadValue) : (s.answer v).lcnt = s.lcnt := rfl
@[simp] theorem State.answer_cur (v : ReadValue) : (s.answer v).cur = s.cur := rfl
@[simp] theorem State.answer_pend (v : ReadValue) : (s.answer v).pend = s.pend := rfl
@[simp] theorem State.answer_anyw (v : ReadValue) : (s.answer v).anyw = s.anyw := rfl
@[simp] theorem State.answer_ut (v : ReadValue) : (s.answer v).ut = s.ut := rfl
@[simp] theorem State.answer_ovl (v : ReadValue) : (s.answer v).ovl = s.ovl := rfl
@[simp] theorem State.answer_fcode (v : ReadValue) : (s.answer v).fcode = s.fcode := rfl
@[simp] theorem State.answer_finfo (v : ReadValue) : (s.answer v).finfo = s.finfo := rfl
@[simp] theorem State.answer_cfg (v : ReadValue) : (s.answer v).cfg = s.cfg := rfl
@[simp] theorem State.answer_pending (v : ReadValue) : (s.answer v).pending = s.pending := rfl
@[simp] theorem State.answer_events (v : ReadValue) : (s.answer v).events = s.events := rfl
@[simp] theorem State.answer_readOut (v : ReadValue) : (s.answer v).readOut = some v := rfl

/-! ### flagAddress -/

@[simp] theorem State.flagAddress_phase : s.flagAddress.phase = s.phase := rfl
@[simp] theorem State.flagAddress_dstate : s.flagAddress.dstate = s.dstate := rfl
@[simp] theorem State.flagAddress_hold : s.flagAddress.hold = s.hold := rfl
@[simp] theorem State.flagAddress_lcnt : s.flagAddress.lcnt = s.lcnt := rfl
@[simp] theorem State.flagAddress_cur : s.flagAddress.cur = s.cur := rfl
@[simp] theorem State.flagAddress_pend : s.flagAddress.pend = true := rfl
@[simp] theorem State.flagAddress_anyw : s.flagAddress.anyw = s.anyw := rfl
@[simp] theorem State.flagAddress_ut : s.flagAddress.ut = s.ut := rfl
@[simp] theorem State.flagAddress_ovl : s.flagAddress.ovl = s.ovl := rfl
@[simp] theorem State.flagAddress_fcode : s.flagAddress.fcode = s.fcode := rfl
@[simp] theorem State.flagAddress_finfo : s.flagAddress.finfo = s.finfo := rfl
@[simp] theorem State.flagAddress_cfg : s.flagAddress.cfg = s.cfg := rfl
@[simp] theorem State.flagAddress_pending : s.flagAddress.pending = s.pending := rfl
@[simp] theorem State.flagAddress_events : s.flagAddress.events = s.events := rfl
@[simp] theorem State.flagAddress_readOut : s.flagAddress.readOut = s.readOut := rfl

/-! ### flagDataWrite -/

@[simp] theorem State.flagDataWrite_phase : s.flagDataWrite.phase = s.phase := rfl
@[simp] theorem State.flagDataWrite_dstate : s.flagDataWrite.dstate = s.dstate := rfl
@[simp] theorem State.flagDataWrite_hold : s.flagDataWrite.hold = s.hold := rfl
@[simp] theorem State.flagDataWrite_lcnt : s.flagDataWrite.lcnt = s.lcnt := rfl
@[simp] theorem State.flagDataWrite_cur : s.flagDataWrite.cur = s.cur := rfl
@[simp] theorem State.flagDataWrite_pend : s.flagDataWrite.pend = false := rfl
@[simp] theorem State.flagDataWrite_anyw : s.flagDataWrite.anyw = true := rfl
@[simp] theorem State.flagDataWrite_ut : s.flagDataWrite.ut = s.ut := rfl
@[simp] theorem State.flagDataWrite_ovl : s.flagDataWrite.ovl = s.ovl := rfl
@[simp] theorem State.flagDataWrite_fcode : s.flagDataWrite.fcode = s.fcode := rfl
@[simp] theorem State.flagDataWrite_finfo : s.flagDataWrite.finfo = s.finfo := rfl
@[simp] theorem State.flagDataWrite_cfg : s.flagDataWrite.cfg = s.cfg := rfl
@[simp] theorem State.flagDataWrite_pending : s.flagDataWrite.pending = s.pending := rfl
@[simp] theorem State.flagDataWrite_events : s.flagDataWrite.events = s.events := rfl
@[simp] theorem State.flagDataWrite_readOut : s.flagDataWrite.readOut = s.readOut := rfl

/-! ### leaderByte -/

@[simp] theorem State.leaderByte_phase : s.leaderByte.phase = s.phase := rfl
@[simp] theorem State.leaderByte_dstate : s.leaderByte.dstate = s.dstate := rfl
@[simp] theorem State.leaderByte_hold : s.leaderByte.hold = s.hold := rfl
@[simp] theorem State.leaderByte_lcnt : s.leaderByte.lcnt = satIncLcw s.cfg s.lcnt := rfl
@[simp] theorem State.leaderByte_cur : s.leaderByte.cur = s.cur := rfl
@[simp] theorem State.leaderByte_pend : s.leaderByte.pend = s.pend := rfl
@[simp] theorem State.leaderByte_anyw : s.leaderByte.anyw = s.anyw := rfl
@[simp] theorem State.leaderByte_ut : s.leaderByte.ut = s.ut := rfl
@[simp] theorem State.leaderByte_ovl : s.leaderByte.ovl = s.ovl := rfl
@[simp] theorem State.leaderByte_fcode : s.leaderByte.fcode = s.fcode := rfl
@[simp] theorem State.leaderByte_finfo : s.leaderByte.finfo = s.finfo := rfl
@[simp] theorem State.leaderByte_cfg : s.leaderByte.cfg = s.cfg := rfl
@[simp] theorem State.leaderByte_pending : s.leaderByte.pending = s.pending := rfl
@[simp] theorem State.leaderByte_events : s.leaderByte.events = s.events := rfl
@[simp] theorem State.leaderByte_readOut : s.leaderByte.readOut = s.readOut := rfl

/-! ### scanTable -/

@[simp] theorem State.scanTable_phase : s.scanTable.phase = s.phase := rfl
@[simp] theorem State.scanTable_dstate : s.scanTable.dstate = s.dstate := rfl
@[simp] theorem State.scanTable_hold : s.scanTable.hold = s.hold := rfl
@[simp] theorem State.scanTable_lcnt : s.scanTable.lcnt = s.lcnt := rfl
@[simp] theorem State.scanTable_cur : s.scanTable.cur = s.cur := rfl
@[simp] theorem State.scanTable_pend : s.scanTable.pend = s.pend := rfl
@[simp] theorem State.scanTable_anyw : s.scanTable.anyw = s.anyw := rfl
@[simp] theorem State.scanTable_ut : s.scanTable.ut = s.ut := rfl
@[simp] theorem State.scanTable_ovl : s.scanTable.ovl = BitVec.ofNat 12 (scanRegions s.ut).length := rfl
@[simp] theorem State.scanTable_fcode : s.scanTable.fcode = s.fcode := rfl
@[simp] theorem State.scanTable_finfo : s.scanTable.finfo = s.finfo := rfl
@[simp] theorem State.scanTable_cfg : s.scanTable.cfg = s.cfg := rfl
@[simp] theorem State.scanTable_pending : s.scanTable.pending = s.pending := rfl
@[simp] theorem State.scanTable_events : s.scanTable.events = s.events ++ (scanRegions s.ut).map regionEvent := rfl
@[simp] theorem State.scanTable_readOut : s.scanTable.readOut = s.readOut := rfl

/-! ### resetBlock -/

@[simp] theorem State.resetBlock_phase : s.resetBlock.phase = .decode := rfl
@[simp] theorem State.resetBlock_dstate : s.resetBlock.dstate = .idle := rfl
@[simp] theorem State.resetBlock_hold : s.resetBlock.hold = 0#6 := rfl
@[simp] theorem State.resetBlock_lcnt : s.resetBlock.lcnt = 0 := rfl
@[simp] theorem State.resetBlock_cur : s.resetBlock.cur = 0#13 := rfl
@[simp] theorem State.resetBlock_pend : s.resetBlock.pend = false := rfl
@[simp] theorem State.resetBlock_anyw : s.resetBlock.anyw = false := rfl
@[simp] theorem State.resetBlock_ut : s.resetBlock.ut = [] := rfl
@[simp] theorem State.resetBlock_ovl : s.resetBlock.ovl = 0#12 := rfl
@[simp] theorem State.resetBlock_fcode : s.resetBlock.fcode = .none := rfl
@[simp] theorem State.resetBlock_finfo : s.resetBlock.finfo = 0#16 := rfl
@[simp] theorem State.resetBlock_cfg : s.resetBlock.cfg = s.cfg := rfl
@[simp] theorem State.resetBlock_pending : s.resetBlock.pending = s.pending := rfl
@[simp] theorem State.resetBlock_events : s.resetBlock.events = s.events := rfl
@[simp] theorem State.resetBlock_readOut : s.resetBlock.readOut = s.readOut := rfl

end Sys2Proof.Machine
end

