-- ==== Sys2Proof/Laws/Ops.lean ====
section
/-! SUPPORT. For each shared operation one lemma that says once everything it can do; proofs cite these instead of
unfolding the operation. -/

namespace Sys2Proof.Machine

/-! ### The phase check -/

theorem State.gate_cases (s : State) (legal : Option Phase) (op : BitVec 2) (body : State → State) :
    (s.phase = .fault ∧ s.gate legal op body = s) ∨
    (s.phase ≠ .fault ∧ legal = some s.phase ∧ s.gate legal op body = body s) ∨
    (s.phase ≠ .fault ∧ legal ≠ some s.phase ∧
      s.gate legal op body = s.raise .cmd (commandInfo op s.phase)) := by
  cases hp : s.phase <;> simp only [State.gate, hp] <;> by_cases hl : legal = some s.phase <;> simp_all

theorem State.gate_fault {s : State} (h : s.phase = .fault) (legal : Option Phase) (op : BitVec 2)
    (body : State → State) : s.gate legal op body = s := by
  simp [State.gate, h]

theorem State.gate_legal {s : State} {p : Phase} (hp : s.phase = p) (hf : p ≠ .fault) (op : BitVec 2)
    (body : State → State) : s.gate (some p) op body = body s := by
  cases p <;> simp_all [State.gate]

theorem State.gate_illegal {s : State} (hf : s.phase ≠ .fault) {legal : Option Phase} (hl : legal ≠ some s.phase)
    (op : BitVec 2) (body : State → State) :
    s.gate legal op body = s.raise .cmd (commandInfo op s.phase) := by
  cases hp : s.phase <;> simp_all [State.gate]

/-- Presenting a record's byte: the record's own step in the sub-state that reads it, and otherwise whatever the byte is
there, all behind the phase check of BYTE. -/
theorem State.present_eq (s : State) (d : DState) (b : Byte) (body : State → State) :
    s.present d b body = s.gate (some .decode) 0b00#2 fun s => if s.dstate = d then body s else s.takeByte b := rfl

theorem State.present_own {s : State} {d : DState} (hp : s.phase = .decode) (hd : s.dstate = d) (b : Byte)
    (body : State → State) : s.present d b body = body s := by
  rw [State.present_eq, State.gate_legal hp (by decide)]
  simp [hd]

/-! ### The table updates -/

/-- A checked update answers the state with that one entry changed, or the state after a RANGE entry. -/
theorem State.updateEntry_cases (s : State) (i : Int) (f : Int → Int) :
    (∃ n : Nat, i = n ∧ n ≤ 4095 ∧ s.updateEntry i f = .ok { s with ut := s.ut.write n (f (s.ut.read n)) }) ∨
    ((i < 0 ∨ 4095 < i) ∧ s.updateEntry i f = .error (s.raise .range (indexInfo i))) := by
  by_cases h : 0 ≤ i ∧ i ≤ 4095
  · exact .inl ⟨i.toNat, by omega, by omega, by simp [State.updateEntry, h]⟩
  · exact .inr ⟨by omega, by simp [State.updateEntry, h]⟩

theorem State.accumulate_counts {s : State} (h : s.cur.toNat ≤ 4095) :
    s.accumulate =
      .ok { s with ut := s.ut.write s.cur.toNat (satIncUcw s.cfg (s.ut.read s.cur.toNat)) } := by
  have : (0 : Int) ≤ s.cur.toNat ∧ (s.cur.toNat : Int) ≤ 4095 := by omega
  simp [State.accumulate, State.updateEntry, this]

theorem State.accumulate_range {s : State} (h : 4095 < s.cur.toNat) :
    s.accumulate = .error (s.raise .range (indexInfo s.cur.toNat)) := by
  have : ¬((0 : Int) ≤ s.cur.toNat ∧ (s.cur.toNat : Int) ≤ 4095) := by omega
  simp only [State.accumulate, State.updateEntry, this, if_false]

theorem State.checksumCorrection_decrements {s : State} (h0 : 1 ≤ s.cur.toNat) (h1 : s.cur.toNat ≤ 4096) :
    s.checksumCorrection =
      .ok { s with ut := s.ut.write (s.cur.toNat - 1) (s.ut.read (s.cur.toNat - 1) - 1) } := by
  have hi : (0 : Int) ≤ (s.cur.toNat : Int) - 1 ∧ (s.cur.toNat : Int) - 1 ≤ 4095 := by omega
  have hn : ((s.cur.toNat : Int) - 1).toNat = s.cur.toNat - 1 := by omega
  simp only [State.checksumCorrection, State.updateEntry, hi, if_true, hn, and_self]

theorem State.checksumCorrection_range {s : State} (h : s.cur.toNat = 0 ∨ 4096 < s.cur.toNat) :
    s.checksumCorrection = .error (s.raise .range (indexInfo ((s.cur.toNat : Int) - 1))) := by
  have hi : ¬((0 : Int) ≤ (s.cur.toNat : Int) - 1 ∧ (s.cur.toNat : Int) - 1 ≤ 4095) := by omega
  simp only [State.checksumCorrection, State.updateEntry, hi, if_false]

/-! ### The record steps -/

/-- The flush as one update: the run's report, and no run. -/
theorem State.flushLeader_eq (s : State) :
    s.flushLeader = { s with lcnt := 0, events := s.events ++ leaderReport s.lcnt } := by
  by_cases h : 0 < s.lcnt
  · simp [State.flushLeader, h, leaderReport, State.emit]
  · have : s.lcnt = 0 := by omega
    simp only [State.flushLeader, h, leaderReport, if_false, List.append_nil]
    rw [← this]

theorem State.fieldByte_eq (s : State) (f : BitVec 3) :
    s.fieldByte f = { s with lcnt := 0, events := s.events ++ leaderReport s.lcnt ++ [.field f] } := by
  simp [State.fieldByte, State.flushLeader_eq, State.emit]

theorem State.invalidByte_eq (s : State) :
    s.invalidByte = { s with lcnt := 0, events := s.events ++ leaderReport s.lcnt ++ [.invalid] } := by
  simp [State.invalidByte, State.flushLeader_eq, State.emit]

theorem State.addrHigh_eq (s : State) (h : Half) :
    s.addrHigh h =
      { s with lcnt := 0, events := s.events ++ leaderReport s.lcnt, hold := h, dstate := .waitAddr } := by
  simp [State.addrHigh, State.flushLeader_eq]

theorem State.dataHigh_eq (s : State) (h : Half) :
    s.dataHigh h =
      { s with lcnt := 0, events := s.events ++ leaderReport s.lcnt, hold := h, dstate := .waitData } := by
  simp [State.dataHigh, State.flushLeader_eq]

theorem State.addrLow_eq (s : State) (l : Half) :
    s.addrLow l =
      { s with
        events := s.events ++ [.addr (join s.hold l)], pend := true, cur := (join s.hold l).setWidth 13,
        dstate := .idle } := rfl

/-- An accepted DataWrite, whole. -/
theorem State.dataLow_counts {s : State} (h : s.cur.toNat ≤ 4095) (l : Half) :
    s.dataLow l =
      { s with
        ut := s.ut.write s.cur.toNat (satIncUcw s.cfg (s.ut.read s.cur.toNat))
        events := s.events ++ [.data (cursorAddr s.cur) (join s.hold l) s.pend]
        anyw := true, pend := false, cur := s.cur + 1#13, dstate := .idle } := by
  simp [State.dataLow, State.accumulate_counts h, State.emit, State.flagDataWrite]

/-- A DataWrite past the end of the table: fault entry and nothing else. -/
theorem State.dataLow_range {s : State} (h : 4095 < s.cur.toNat) (l : Half) :
    s.dataLow l = s.raise .range (indexInfo s.cur.toNat) := by
  simp only [State.dataLow, State.accumulate_range h]

/-- What a first byte can be. -/
theorem State.firstByte_cases (s : State) (b : Byte) :
    (b = 0x80#8 ∧ s.firstByte b = s.leaderByte) ∨
    (b ≠ 0x80#8 ∧ byteTag b = 0b11#2 ∧ s.firstByte b = s.fieldByte (byteField b)) ∨
    (b ≠ 0x80#8 ∧ byteTag b = 0b10#2 ∧ s.firstByte b = s.invalidByte) ∨
    (b ≠ 0x80#8 ∧ byteTag b = 0b01#2 ∧ s.firstByte b = s.addrHigh (byteHalf b)) ∨
    (b ≠ 0x80#8 ∧ byteTag b = 0b00#2 ∧ s.firstByte b = s.dataHigh (byteHalf b)) := by
  have htag : ∀ t : BitVec 2, t = 0b11#2 ∨ t = 0b10#2 ∨ t = 0b01#2 ∨ t = 0b00#2 := by decide
  by_cases hb : b = 0x80#8
  · exact .inl ⟨hb, by simp [State.firstByte, hb]⟩
  · rcases htag (byteTag b) with h | h | h | h <;> simp [State.firstByte, hb, h]

theorem State.takeByte_idle {s : State} (h : s.dstate = .idle) (b : Byte) : s.takeByte b = s.firstByte b := by
  simp [State.takeByte, h]

theorem State.takeByte_waitAddr {s : State} (h : s.dstate = .waitAddr) (b : Byte) :
    s.takeByte b = s.addrLow (byteHalf b) := by
  simp [State.takeByte, h]

theorem State.takeByte_waitData {s : State} (h : s.dstate = .waitData) (b : Byte) :
    s.takeByte b = s.dataLow (byteHalf b) := by
  simp [State.takeByte, h]

/-! ### END -/

/-- What END can do in phase DECODE: truncation, an end without correction, an end with it, or a RANGE entry after the
flush. -/
theorem State.endStream_cases (s : State) :
    (s.dstate = .waitAddr ∧ s.endStream = s.raise .trunc (firstByteInfo 0b01#2 s.hold)) ∨
    (s.dstate = .waitData ∧ s.endStream = s.raise .trunc (firstByteInfo 0b00#2 s.hold)) ∨
    (s.dstate = .idle ∧ ¬(s.cfg.ck = true ∧ s.anyw = true) ∧
      s.endStream = { s with lcnt := 0, events := s.events ++ leaderReport s.lcnt, phase := .done }) ∨
    (s.dstate = .idle ∧ s.cfg.ck = true ∧ s.anyw = true ∧ 1 ≤ s.cur.toNat ∧ s.cur.toNat ≤ 4096 ∧
      s.endStream =
        { s with
          lcnt := 0, events := s.events ++ leaderReport s.lcnt, phase := .done
          ut := s.ut.write (s.cur.toNat - 1) (s.ut.read (s.cur.toNat - 1) - 1) }) ∨
    (s.dstate = .idle ∧ s.cfg.ck = true ∧ s.anyw = true ∧ (s.cur.toNat = 0 ∨ 4096 < s.cur.toNat) ∧
      s.endStream =
        { s with
          lcnt := 0, events := s.events ++ leaderReport s.lcnt, phase := .fault, fcode := .range
          finfo := indexInfo ((s.cur.toNat : Int) - 1) }) := by
  have hds : ∀ d : DState, d = .waitAddr ∨ d = .waitData ∨ d = .idle := by intro d; cases d <;> simp
  rcases hds s.dstate with hd | hd | hd
  · exact .inl ⟨hd, by simp [State.endStream, hd]⟩
  · exact .inr (.inl ⟨hd, by simp [State.endStream, hd]⟩)
  · have he : s.endStream = s.finishStream := by simp [State.endStream, hd]
    rw [he, State.finishStream, State.flushLeader_eq]
    by_cases hc : s.cfg.ck = true ∧ s.anyw = true
    · by_cases hr : 1 ≤ s.cur.toNat ∧ s.cur.toNat ≤ 4096
      · refine .inr (.inr (.inr (.inl ⟨hd, hc.1, hc.2, hr.1, hr.2, ?_⟩)))
        rw [if_pos hc, State.checksumCorrection_decrements] <;> first | exact hr.1 | exact hr.2
      · have hr' : s.cur.toNat = 0 ∨ 4096 < s.cur.toNat := by omega
        refine .inr (.inr (.inr (.inr ⟨hd, hc.1, hc.2, hr', ?_⟩)))
        rw [if_pos hc, State.checksumCorrection_range]
        · rfl
        · exact hr'
    · exact .inr (.inr (.inl ⟨hd, hc, by rw [if_neg hc]⟩))

/-! ### The scan -/

@[simp] theorem scanFrom_end (m : Memory) (i : Nat) : scanFrom m 0 i none = [] := rfl

@[simp] theorem scanFrom_close_end (m : Memory) (i start : Nat) : scanFrom m 0 i (some start) = [(start, i - 1)] := rfl

/-- Outside a region a count above 1 opens one, and any other count is passed over. -/
theorem scanFrom_outside (m : Memory) (n i : Nat) :
    scanFrom m (n + 1) i none = scanFrom m n (i + 1) (if m.read i > 1 then some i else none) := rfl

/-- Inside a region a count above 1 goes on, and any other count closes it before this index. -/
theorem scanFrom_inside (m : Memory) (n i start : Nat) :
    scanFrom m (n + 1) i (some start) =
      if m.read i > 1 then scanFrom m n (i + 1) (some start) else (start, i - 1) :: scanFrom m n (i + 1) none := rfl

/-! ### The host's requests -/

theorem State.nextRequest_none {s : State} (h : s.pending = []) : s.nextRequest = none := by
  simp [State.nextRequest, h]

theorem State.nextRequest_some {s : State} {r : Request} {rest : List Request} (h : s.pending = r :: rest) :
    s.nextRequest = some (r, { s with pending := rest }) := by
  simp [State.nextRequest, h]

/-- Every operation of the block is carried out: no arm of exec faults or refuses. -/
theorem exec_answers_next (i : Instr) (s : State) : ∃ t, exec i s = .next t := by
  cases i <;> exact ⟨_, rfl⟩

end Sys2Proof.Machine
end

