-- ==== Sys2Proof/Laws/PerInstr.lean ====
section
/-! SUPPORT. A family about the syntax of every instruction: the request it is encoded as shows the pattern of its row in
spec/opcode_table.json (the row's mask and match, and the value INVALID excludes). -/

namespace Sys2Proof.Laws.EncodeMatchesTable

open Sys2Proof

/-- A request is BYTE with a byte that shows `pattern` under `mask`. -/
def byteShows (mask pattern : Byte) : Request → Bool
  | .op code b => code = 0b00#2 && b &&& mask = pattern
  | .rst | .count _ | .cell _ | .pair _ | .reg _ => false

/-- A request carries the op code `code`. -/
def showsOp (code : BitVec 2) : Request → Bool
  | .op c _ => c = code
  | .rst | .count _ | .cell _ | .pair _ | .reg _ => false

/-- A request shows the pattern of the instruction's opcode-table row. -/
def matchesRow (i : Instr) (r : Request) : Bool :=
  match i with
  | .leader => byteShows 0xFF#8 0x80#8 r
  | .field _ _ => byteShows 0xC0#8 0xC0#8 r
  | .invalid _ => byteShows 0xC0#8 0x80#8 r && !byteShows 0xFF#8 0x80#8 r
  | .addr _ => byteShows 0xC0#8 0x40#8 r
  | .addrB2 _ _ => byteShows 0x00#8 0x00#8 r
  | .data _ => byteShows 0xC0#8 0x00#8 r
  | .dataB2 _ _ => byteShows 0x00#8 0x00#8 r
  | .byte _ => showsOp 0b00#2 r
  | .endOp => showsOp 0b01#2 r
  | .scan => showsOp 0b10#2 r
  | .reservedOp => showsOp 0b11#2 r
  | .reset => r = .rst
  | .count a => r = .count a
  | .cell a => r = .cell a
  | .pair j => r = .pair j
  | .reg n => r = .reg n

/-- A well-formed instruction's encoding shows its row's pattern. -/
def Statement (i : Instr) : Prop := i.wellFormed = true → matchesRow i (encode i) = true

theorem leader : Statement .leader := by unfold Statement; decide

theorem field (f x : BitVec 3) : Statement (.field f x) := by
  unfold Statement; revert f x; decide

theorem invalid (n : Half) : Statement (.invalid n) := by
  unfold Statement; revert n; decide

theorem addr (h : Half) : Statement (.addr h) := by
  unfold Statement; revert h; decide

theorem addrB2 (t : BitVec 2) (l : Half) : Statement (.addrB2 t l) := by
  intro _; simp [matchesRow, byteShows, encode, byteRequest]

theorem data (h : Half) : Statement (.data h) := by
  unfold Statement; revert h; decide

theorem dataB2 (t : BitVec 2) (l : Half) : Statement (.dataB2 t l) := by
  intro _; simp [matchesRow, byteShows, encode, byteRequest]

theorem byte (b : Byte) : Statement (.byte b) := by
  intro _; simp [matchesRow, showsOp, encode, byteRequest]

theorem endOp : Statement .endOp := by unfold Statement; decide

theorem scan : Statement .scan := by unfold Statement; decide

theorem reservedOp : Statement .reservedOp := by unfold Statement; decide

theorem reset : Statement .reset := by unfold Statement; decide

theorem count (a : Addr) : Statement (.count a) := by intro _; simp [matchesRow, encode]

theorem cell (a : Addr) : Statement (.cell a) := by intro _; simp [matchesRow, encode]

theorem pair (j : BitVec 11) : Statement (.pair j) := by intro _; simp [matchesRow, encode]

theorem reg (n : BitVec 2) : Statement (.reg n) := by intro _; simp [matchesRow, encode]

end Sys2Proof.Laws.EncodeMatchesTable
end

