-- ==== Sys2Proof/Laws/Report.lean ====
section
/-! SUPPORT. The small lemmas of the observation layer: the digits of a printed number, and what the host's report is at
each end of a run. -/

namespace Sys2Proof.Machine

theorem isDigit_of_mem_octal {n : Nat} {c : Char} (h : c ∈ octal n) : c.isDigit = true :=
  Nat.isDigit_of_mem_toDigits (by decide) (by decide) h

theorem octal_ne_nil (n : Nat) : octal n ≠ [] := List.ne_nil_of_length_pos Nat.length_toDigits_pos

@[simp] theorem length_padded (w : Nat) (c : Char) (t : List Char) : (padded w c t).length = max w t.length := by
  simp [padded]; omega

theorem padded_ne_nil {w : Nat} {c : Char} {t : List Char} (h : t ≠ []) : padded w c t ≠ [] := by
  simp [padded, h]

@[simp] theorem toList_octalText (w n : Nat) : (octalText w n).toList = padded w '0' (octal n) := by
  simp [octalText]

/-- A printed number is all digits, so no part of it is the star. -/
theorem isDigit_of_mem_octalText {w n : Nat} {c : Char} (h : c ∈ (octalText w n).toList) : c.isDigit = true := by
  rw [toList_octalText, padded, List.mem_append] at h
  rcases h with h | h
  · rw [List.eq_of_mem_replicate h]; decide
  · exact isDigit_of_mem_octal h

@[simp] theorem LineText.toList_around (t : LineText) (body : String) :
    (t.around body).toList = t.before.toList ++ body.toList ++ t.after.toList := by simp [LineText.around]

/-- Text put around a number begins with the star only if the text does. -/
theorem LineText.around_octalText_head {t : LineText} (h : t.ok = true) (w n : Nat) :
    (t.around (octalText w n)).toList.head? ≠ some '*' := by
  have hb : t.before.toList.head? ≠ some '*' := by
    simp [LineText.ok, openingText] at h; exact h.1.2
  intro hs
  rw [LineText.toList_around, List.append_assoc, List.head?_append] at hs
  cases hl : t.before.toList with
  | cons c cs => rw [hl] at hs hb; exact hb (by simpa using hs)
  | nil =>
    rw [hl, List.head?_nil, Option.none_or, List.head?_append_of_ne_nil _ (by
      rw [toList_octalText]; exact padded_ne_nil (octal_ne_nil n))] at hs
    exact absurd (isDigit_of_mem_octalText (List.mem_of_mem_head? hs)) (by decide)

/-- A run that finds a RESET asked stops there without having ended. -/
theorem runToEnd_reset {s : State} {rest : List Request} (h : s.pending = .rst :: rest) (k : Nat) :
    runToEnd k s = (.notEnded, s) := by
  cases k with
  | zero => rfl
  | succ k => simp [runToEnd, State.nextRequest_some h, isReset]

theorem hostReport_notEnded {p : HostParams} {o : HostOptions} {k : Nat} {s t : State}
    (h : runToEnd k s.resetBlock = (.notEnded, t)) : hostReport p o k s = none := by simp [hostReport, h]

theorem hostReport_completed {p : HostParams} {o : HostOptions} {k : Nat} {s t : State}
    (h : runToEnd k s.resetBlock = (.completed, t)) :
    hostReport p o k s = some (completedReport p o (t.events.drop s.events.length) t) := by
  simp only [hostReport, h]; rfl

theorem hostReport_faulted {p : HostParams} {o : HostOptions} {k : Nat} {s t : State}
    (h : runToEnd k s.resetBlock = (.faulted, t)) :
    hostReport p o k s = some (faultedReport p o (t.events.drop s.events.length) t) := by
  simp only [hostReport, h]; rfl

end Sys2Proof.Machine
end

