-- ==== Sys2Proof/Tests/Slice0.lean ====
section
/-! SUPPORT. The model's own tests: the well-formedness smoke test, a word of every encoding written out from the spec,
one or two single steps per instruction with expected values from the spec's examples, and for every obligation with
hypotheses concrete values that meet them. -/

namespace Sys2Proof.Tests

open Sys2Proof Sys2Proof.Machine

/-! ### Well-formedness smoke test -/

theorem test_ill_formed_invalid_refused : Instr.wellFormed (.invalid 0#6) = false := by decide

theorem test_ill_formed_invalid_record_refused : Record.wellFormed (.invalid 0#6) = false := by decide

theorem test_addrB2_not_read_at_boundary : Instr.readIn .decode .idle (.addrB2 0#2 5#6) = false := by decide

theorem test_byte_not_read_in_decode : Instr.readIn .decode .idle (.byte 0x12#8) = false := by decide

theorem test_config_width_too_small : ¬Config.wf { ck := false, lcw := 0, ucw := 2 } := by decide

/-! ### Words written out from the encodings of 30_encoding.md R91, R95, R100, R101 (values: 95_test_vectors.md T1, T2) -/

theorem test_decode_leader : decode .decode .idle (.op 0b00#2 0b10000000#8) = .leader := by decide

theorem test_decode_field : decode .decode .idle (.op 0b00#2 0b11010101#8) = .field 0b010#3 0b101#3 := by decide

theorem test_decode_field_seven : decode .decode .idle (.op 0b00#2 0b11111111#8) = .field 7#3 7#3 := by decide

theorem test_decode_invalid_lowest : decode .decode .idle (.op 0b00#2 0b10000001#8) = .invalid 1#6 := by decide

theorem test_decode_invalid_highest : decode .decode .idle (.op 0b00#2 0b10111111#8) = .invalid 63#6 := by decide

theorem test_decode_addr : decode .decode .idle (.op 0b00#2 0b01111111#8) = .addr 0x3F#6 := by decide

theorem test_decode_addrB2 : decode .decode .waitAddr (.op 0b00#2 0b11000101#8) = .addrB2 0b11#2 5#6 := by decide

theorem test_decode_addrB2_leader_byte : decode .decode .waitAddr (.op 0b00#2 0b10000000#8) = .addrB2 2#2 0#6 := by
  decide

theorem test_decode_data : decode .decode .idle (.op 0b00#2 0b00001010#8) = .data 10#6 := by decide

theorem test_decode_dataB2 : decode .decode .waitData (.op 0b00#2 0b11111111#8) = .dataB2 3#2 63#6 := by decide

theorem test_decode_byte : decode .done .idle (.op 0b00#2 0b00010010#8) = .byte 0x12#8 := by decide

theorem test_decode_end : decode .decode .idle (.op 0b01#2 0b00000000#8) = .endOp := by decide

theorem test_decode_scan : decode .done .idle (.op 0b10#2 0b00000000#8) = .scan := by decide

theorem test_decode_reserved : decode .decode .waitData (.op 0b11#2 0b00000000#8) = .reservedOp := by decide

theorem test_decode_reset : decode .fault .waitAddr .rst = .reset := by decide

theorem test_decode_count : decode .decode .idle (.count 0b111111111111#12) = .count 4095#12 := by decide

theorem test_decode_cell : decode .decode .idle (.cell 0b000000000100#12) = .cell 4#12 := by decide

theorem test_decode_pair : decode .decode .idle (.pair 0b11111111111#11) = .pair 2047#11 := by decide

theorem test_decode_reg : decode .fault .idle (.reg 0b11#2) = .reg 3#2 := by decide

/-- V-RT of 95_test_vectors.md: 0o4321 is `63 11` as an AddressSet, and `63 D1` decodes to it too. -/
theorem test_record_address_round_trip :
    encodeRecord (.addressSet 0o4321#12) = [0x63#8, 0x11#8] ∧
    decodeRecord [0x63#8, 0xD1#8] = .ok (.addressSet 0o4321#12, []) := ⟨by decide, rfl⟩

/-- P1 of 95_test_vectors.md: the bytes of its WORDS line. -/
theorem test_words_bytes :
    wordsBytes 0o0200#12 [0o1234#12, 0o1235#12, 0o7777#12] =
      [0x42#8, 0x00#8, 0x0A#8, 0x1C#8, 0x0A#8, 0x1D#8, 0x3F#8, 0x3F#8] := by decide

theorem test_truncated_record_rejected : decodeRecord [0x40#8] = .error .truncated := rfl

/-! ### One step of every instruction (95_test_vectors.md and the examples of the rules) -/

/-- The outcome is a next state with the property. -/
def nextHas (o : Host.Outcome State Fault Refusal) (p : State → Bool) : Bool :=
  match o with
  | .next s => p s
  | .fault _ => false
  | .refused _ => false

/-- A state in the given phase and sub-state. -/
def inState (p : Phase) (d : DState) : State := { State.reset with phase := p, dstate := d }

/-- R121: LCNT = 4, then BYTE(0x80) gives LCNT = 5 and no event. -/
theorem test_leader_counts : nextHas (exec .leader { inState .decode .idle with lcnt := 4 })
    (fun t => t.lcnt = 5 && t.events = []) := by decide

/-- T4: LCNT saturates at 3 with LCW = 2. -/
theorem test_leader_saturates :
    nextHas (exec .leader { inState .decode .idle with lcnt := 3, cfg := { ck := false, lcw := 2, ucw := 32 } })
      (fun t => t.lcnt = 3) := by decide

/-- V-D: five leader bytes, then FIELD(0). -/
theorem test_field_flushes : nextHas (exec (.field 0#3 7#3) { inState .decode .idle with lcnt := 5 })
    (fun t => t.events = [.leader 5, .field 0#3] && t.lcnt = 0 && t.dstate = .idle) := by decide

/-- T4: `80 81` sends LEADER(1), INVALID. -/
theorem test_invalid_flushes : nextHas (exec (.invalid 1#6) { inState .decode .idle with lcnt := 1 })
    (fun t => t.events = [.leader 1, .invalid] && t.phase = .decode) := by decide

/-- R125: BYTE(0x7F) gives HOLD = 0x3F and WAIT_ADDR. -/
theorem test_addr_holds : nextHas (exec (.addr 0x3F#6) (inState .decode .idle))
    (fun t => t.hold = 0x3F#6 && t.dstate = .waitAddr && t.events = []) := by decide

/-- R127: HOLD = 0x15, then 0x2A emits ADDR(1386) and gives CUR = 1386, PEND = 1. -/
theorem test_addrB2_sets_cursor : nextHas (exec (.addrB2 0#2 0x2A#6) { inState .decode .waitAddr with hold := 0x15#6 })
    (fun t => t.events = [.addr 1386#12] && t.cur = 1386#13 && t.pend && t.dstate = .idle) := by decide

/-- R126: BYTE(0x0A) gives HOLD = 0x0A and WAIT_DATA. -/
theorem test_data_holds : nextHas (exec (.data 0x0A#6) (inState .decode .idle))
    (fun t => t.hold = 0x0A#6 && t.dstate = .waitData) := by decide

/-- R128: CUR = 128, PEND = 1, HOLD = 0x0A, then 0x1C emits DATA(128, 668, 1). -/
theorem test_dataB2_counts :
    nextHas (exec (.dataB2 0#2 0x1C#6) { inState .decode .waitData with cur := 128#13, pend := true, hold := 0x0A#6 })
      (fun t => t.events = [.data 128#12 668#12 true] && t.ut = [(128, 1)] && t.cur = 129#13 && !t.pend && t.anyw) := by
  decide

/-- T3 and T10: at UCW = 3 a count of 3 stays, and at 4095 the cursor goes to 4096. -/
theorem test_dataB2_saturates_at_top :
    nextHas (exec (.dataB2 3#2 0#6) { inState .decode .waitData with
        cur := 4095#13, ut := [(4095, 3)], cfg := { ck := false, lcw := 32, ucw := 3 } })
      (fun t => t.ut = [(4095, 3)] && t.cur = 4096#13 && t.phase = .decode) := by decide

/-- T4: one BYTE can send two events. -/
theorem test_byte_two_events : nextHas (exec (.byte 0xE3#8) { inState .decode .idle with lcnt := 2 })
    (fun t => t.events = [.leader 2, .field 4#3]) := by decide

/-- T2: in WAIT_ADDR the byte 0x80 is no leader. -/
theorem test_byte_continuation : nextHas (exec (.byte 0x80#8) (inState .decode .waitAddr))
    (fun t => t.events = [.addr 0#12] && t.lcnt = 0) := by decide

/-- T5: END with CUR = 5 in checksummed mode takes UT[4] to -1 and leaves UT[0]. -/
theorem test_end_corrects :
    nextHas (exec .endOp { inState .decode .idle with
        cur := 5#13, anyw := true, ut := [(0, 1)], cfg := { ck := true, lcw := 32, ucw := 32 } })
      (fun t => t.ut = [(0, 1), (4, -1)] && t.phase = .done) := by decide

/-- T5: `7F`, END raises TRUNC with FINFO 0x007F. -/
theorem test_end_truncates : nextHas (exec .endOp { inState .decode .waitAddr with hold := 0x3F#6 })
    (fun t => t.fcode = .trunc && t.finfo = 0x007F#16 && t.dstate = .waitAddr) := by decide

/-- T8: UT[5..8] = 3, 2, 1, 2 gives (5,6), (8,8) and OVL = 2. -/
theorem test_scan_regions :
    nextHas (exec .scan { inState .done .idle with ut := [(5, 3), (6, 2), (7, 1), (8, 2)] })
      (fun t => t.events = [.region 5#12 6#12, .region 8#12 8#12] && t.ovl = 2#12) := by decide +kernel

/-- T8: a region that reaches the top of the table ends at 4095. -/
theorem test_scan_region_at_top : nextHas (exec .scan { inState .done .idle with ut := [(4094, 2), (4095, 2)] })
    (fun t => t.events = [.region 4094#12 4095#12] && t.ovl = 1#12) := by decide +kernel

/-- T6: END, op 0b11 raises CMD with FINFO 0x0013. -/
theorem test_reserved_in_done : nextHas (exec .reservedOp (inState .done .idle))
    (fun t => t.phase = .fault && t.fcode = .cmd && t.finfo = 0x0013#16) := by decide

/-- T7: `40`, RESET: no fault, IDLE, REG0 = 0x00. -/
theorem test_reset_drops_held_half : nextHas (exec .reset { inState .decode .waitAddr with hold := 1#6, cur := 7#13 })
    (fun t => t.fcode = .none && t.dstate = .idle && t.cur = 0#13 && statusWord t = 0#16) := by decide

/-- T9: COUNT(4) = -1. -/
theorem test_count_negative : nextHas (exec (.count 4#12) { inState .done .idle with ut := [(0, 1), (4, -1)] })
    (fun t => t.readOut = some (.count (-1))) := by decide

/-- T9: CELL(4) = 3 where UT[4] = -1. -/
theorem test_cell_negative : nextHas (exec (.cell 4#12) { inState .done .idle with ut := [(0, 1), (4, -1)] })
    (fun t => t.readOut = some (.cell 3#2)) := by decide

/-- T9: the pair (1, 2) is class 2. -/
theorem test_pair_overlap_first : nextHas (exec (.pair 2#11) { inState .done .idle with ut := [(4, 1), (5, 2)] })
    (fun t => t.readOut = some (.pair 2#2)) := by decide

/-- T9: the pair (-1, 0) is class 3. -/
theorem test_pair_negative : nextHas (exec (.pair 2#11) { inState .done .idle with ut := [(4, -1)] })
    (fun t => t.readOut = some (.pair 3#2)) := by decide

/-- T3: REG0 = 0xAA after the second DataWrite at the top. -/
theorem test_reg_status :
    nextHas (exec (.reg 0#2) { inState .fault .waitData with anyw := true, fcode := .range, finfo := 0x1000#16 })
      (fun t => t.readOut = some (.reg 0x00AA#16)) := by decide

/-- P3: REG1 = 0x1000 when CUR = 4096. -/
theorem test_reg_cursor : nextHas (exec (.reg 1#2) { inState .fault .waitData with cur := 4096#13 })
    (fun t => t.readOut = some (.reg 0x1000#16)) := by decide

/-- The opcode table's word of END, placed for the next step from reset, runs END. -/
theorem test_fetch_word_runs : nextHas (step (State.reset.withFetchWord 8 0x01))
    (fun t => t.phase = .done && t.pending = []) := by decide

/-! ### Values that meet the hypotheses of the obligations -/

theorem test_witness_DecodeInvertsEncode :
    Instr.wellFormed (.invalid 1#6) = true ∧ Instr.readIn .decode .idle (.invalid 1#6) = true ∧
    Instr.wellFormed (.addrB2 3#2 63#6) = true ∧ Instr.readIn .decode .waitAddr (.addrB2 3#2 63#6) = true ∧
    Instr.wellFormed (.byte 255#8) = true ∧ Instr.readIn .fault .idle (.byte 255#8) = true := by decide

/-- The first and last value of each range. -/
theorem test_witness_FirstByteDecodeMap :
    ((0x00#8).toNat ≤ 0x3F ∧ (0x3F#8).toNat ≤ 0x3F) ∧ (0x40 ≤ (0x40#8).toNat ∧ (0x7F#8).toNat ≤ 0x7F) ∧
    (0x80#8).toNat = 0x80 ∧ (0x81 ≤ (0x81#8).toNat ∧ (0xBF#8).toNat ≤ 0xBF) ∧
    (0xC0 ≤ (0xC0#8).toNat ∧ 0xC0 ≤ (0xFF#8).toNat) := by decide

theorem test_witness_RecordEncodingRoundTrip :
    Record.wellFormed (.invalid 63#6) = true ∧ Record.wellFormed (.dataWrite 4095#12) = true := by decide

/-- A state with the continuation 0x85 of an AddressSet and a read asked. -/
def asked : State := { inState .decode .waitAddr with pending := [.op 0b00#2 0x85#8, .reg 0#2] }

theorem test_witness_StepRunsDecodedInstruction :
    Instr.wellFormed (.addrB2 2#2 5#6) = true ∧ Instr.readIn asked.phase asked.dstate (.addrB2 2#2 5#6) = true ∧
    asked.pending = encode (.addrB2 2#2 5#6) :: [.reg 0#2] := by decide

theorem test_witness_StepWithNothingAskedIsIdle : (inState .done .idle).pending = [] := by decide

/-- A record boundary with a leader run in progress, both below and at its maximum. -/
theorem test_witness_LeaderByteCountsSaturating :
    (∃ s : State, s.phase = .decode ∧ s.dstate = .idle ∧ s.lcnt < 2 ^ s.cfg.lcw - 1) ∧
    (∃ s : State, s.phase = .decode ∧ s.dstate = .idle ∧ s.lcnt = 2 ^ s.cfg.lcw - 1) :=
  ⟨⟨State.reset, by decide⟩,
   ⟨{ inState .decode .idle with lcnt := 3, cfg := { ck := false, lcw := 2, ucw := 3 } }, by decide⟩⟩

theorem test_witness_FieldReportsItsNumber : ∃ s : State, s.phase = .decode ∧ s.dstate = .idle ∧ 0 < s.lcnt :=
  ⟨{ inState .decode .idle with lcnt := 2 }, by decide⟩

theorem test_witness_InvalidReportsItself :
    ∃ (n : Half) (s : State), n ≠ 0#6 ∧ s.phase = .decode ∧ s.dstate = .idle :=
  ⟨63#6, { inState .decode .idle with lcnt := 1 }, by decide⟩

theorem test_witness_FirstByteHoldsHighHalf : ∃ s : State, s.phase = .decode ∧ s.dstate = .idle ∧ s.hold = 9#6 :=
  ⟨{ inState .decode .idle with hold := 9#6 }, by decide⟩

theorem test_witness_AddrContinuationSetsCursor :
    ∃ s : State, s.phase = .decode ∧ s.dstate = .waitAddr ∧ s.hold = 63#6 ∧ s.cur = 4096#13 :=
  ⟨{ inState .decode .waitAddr with hold := 63#6, cur := 4096#13 }, by decide⟩

/-- The cursor at both ends of the table, the second with its entry at UCW_MAX. -/
theorem test_witness_DataContinuationCountsAtCursor :
    (∃ s : State, s.phase = .decode ∧ s.dstate = .waitData ∧ s.cur.toNat = 0 ∧ s.cur.toNat ≤ 4095) ∧
    (∃ s : State, s.phase = .decode ∧ s.dstate = .waitData ∧ s.cur.toNat = 4095 ∧ s.cur.toNat ≤ 4095 ∧
      s.ut.read s.cur.toNat = 2 ^ (s.cfg.ucw - 1) - 1) :=
  ⟨⟨inState .decode .waitData, by decide⟩,
   ⟨{ inState .decode .waitData with
      cur := 4095#13, ut := [(4095, 3)], cfg := { ck := false, lcw := 1, ucw := 3 } }, by decide⟩⟩

theorem test_witness_DataPastTheTableRaisesRange :
    ∃ s : State, s.phase = .decode ∧ s.dstate = .waitData ∧ s.cur = 4096#13 :=
  ⟨{ inState .decode .waitData with cur := 4096#13 }, by decide⟩

/-- The first and last byte of every range of the boundary's cases. -/
theorem test_witness_ByteAtRecordBoundary :
    (∃ s : State, s.phase = .decode ∧ s.dstate = .idle) ∧
    (0x80#8).toNat = 0x80 ∧ 0xC0 ≤ (0xC0#8).toNat ∧ 0xC0 ≤ (0xFF#8).toNat ∧
    (0x81 ≤ (0x81#8).toNat ∧ (0xBF#8).toNat < 0xC0) ∧ (0x40 ≤ (0x40#8).toNat ∧ (0x7F#8).toNat < 0x80) ∧
    (0x3F#8).toNat < 0x40 := ⟨⟨State.reset, by decide⟩, by decide⟩

theorem test_witness_ContinuationByteIsNeverClassified :
    (∃ s : State, s.phase = .decode ∧ s.dstate = .waitAddr) ∧
    (∃ s : State, s.phase = .decode ∧ s.dstate = .waitData) :=
  ⟨⟨inState .decode .waitAddr, by decide⟩, ⟨inState .decode .waitData, by decide⟩⟩

theorem test_witness_RecordInstructionIsItsByte :
    Instr.wellFormed (.field 7#3 7#3) = true ∧ encode (.field 7#3 7#3) = .op 0b00#2 0xFF#8 := by decide

/-- A state of each phase, and an instruction that is a byte. -/
theorem test_witness_CommandFaults :
    (∃ s : State, s.phase = .done) ∧ (∃ s : State, s.phase = .decode) ∧
    (∃ b : Byte, encode (.data 63#6) = .op 0b00#2 b) :=
  ⟨⟨inState .done .idle, by decide⟩, ⟨State.reset, by decide⟩, ⟨0x3F#8, by decide⟩⟩

/-- A faulted state, a byte, a read and RESET. -/
theorem test_witness_FaultStateIsTerminal :
    ∃ s : State, s.phase = .fault ∧ Instr.byte 0#8 ≠ .reset ∧ Instr.count 4#12 ≠ .reset ∧
      (∀ a, Instr.byte 0#8 ≠ .count a) ∧ (∀ a, Instr.byte 0#8 ≠ .cell a) ∧ (∀ j, Instr.byte 0#8 ≠ .pair j) ∧
      (∀ n, Instr.byte 0#8 ≠ .reg n) :=
  ⟨inState .fault .waitData, by decide, by decide, by decide, nofun, nofun, nofun, nofun⟩

/-- An END whose correction raises RANGE after a flush. -/
def endRange : State :=
  { inState .decode .idle with lcnt := 2, anyw := true, cfg := { ck := true, lcw := 32, ucw := 32 } }

theorem test_witness_FaultEntryIsPrecise :
    (endRange.phase ≠ .fault ∧ ∃ t, exec .endOp endRange = .next t ∧ t.phase = .fault ∧ t.lcnt ≠ endRange.lcnt) ∧
    (∃ s t : State, s.phase ≠ .fault ∧ exec .scan s = .next t ∧ t.phase = .fault) :=
  ⟨⟨by decide, _, rfl, by decide, by decide⟩, State.reset, _, by decide, rfl, by decide⟩

theorem test_witness_FirstFaultIsKept :
    ∃ s : State, s.phase = .fault ∧ s.pending ≠ [] ∧ ∀ r ∈ s.pending, isReset r = false :=
  ⟨{ inState .fault .idle with pending := [endRequest, byteRequest 0x40#8, .reg 3#2, scanRequest] }, by decide⟩

/-- Both reasons for no correction. -/
theorem test_witness_EndWithoutCorrection :
    (∃ s : State, s.phase = .decode ∧ s.dstate = .idle ∧ s.cfg.ck = false ∧ s.anyw = true) ∧
    (∃ s : State, s.phase = .decode ∧ s.dstate = .idle ∧ s.cfg.ck = true ∧ s.anyw = false) :=
  ⟨⟨{ inState .decode .idle with anyw := true }, by decide⟩,
   ⟨{ inState .decode .idle with cfg := { ck := true, lcw := 32, ucw := 32 } }, by decide⟩⟩

/-- The cursor at both ends of its range. -/
theorem test_witness_EndCorrectsEntryBeforeCursor :
    (∃ s : State, s.phase = .decode ∧ s.dstate = .idle ∧ s.cfg.ck = true ∧ s.anyw = true ∧ s.cur.toNat = 1) ∧
    (∃ s : State, s.phase = .decode ∧ s.dstate = .idle ∧ s.cfg.ck = true ∧ s.anyw = true ∧ s.cur.toNat = 4096) :=
  ⟨⟨{ endRange with cur := 1#13 }, by decide⟩, ⟨{ endRange with cur := 4096#13 }, by decide⟩⟩

theorem test_witness_EndCorrectionBelowTheTableRaisesRange :
    endRange.phase = .decode ∧ endRange.dstate = .idle ∧ endRange.cfg.ck = true ∧ endRange.anyw = true ∧
    endRange.cur = 0#13 := by decide

/-- Both wait states, in checksummed mode. -/
theorem test_witness_EndInsideARecordRaisesTrunc :
    (∃ s : State, s.phase = .decode ∧ s.dstate = .waitAddr ∧ s.cfg.ck = true) ∧
    (∃ s : State, s.phase = .decode ∧ s.dstate = .waitData ∧ s.cfg.ck = true) :=
  ⟨⟨{ endRange with dstate := .waitAddr }, by decide⟩, ⟨{ endRange with dstate := .waitData }, by decide⟩⟩

/-- A table whose first and last entries overlap. -/
def overlapping : State := { inState .done .idle with ut := [(0, 2), (4095, 3)] }

theorem test_witness_ScanReportsMaximalOverlapRegions :
    overlapping.phase = .done ∧ 1 < overlapping.ut.read 0 ∧ 1 < overlapping.ut.read 4095 := by decide

theorem test_witness_RepeatedScansRepeatTheResult :
    ∃ s : State, s.phase = .done ∧ s.pending = List.replicate (1 + 1) (.op 0b10#2 0#8) ++ [.rst] :=
  ⟨{ overlapping with pending := [scanRequest, scanRequest, .rst] }, by decide⟩

theorem test_witness_ScanDependsOnlyOnCountsAboveOne :
    ∃ s s' t t' : State, s.phase = .done ∧ s'.phase = .done ∧
      (∀ i < 4096, (1 < s.ut.read i ↔ 1 < s'.ut.read i)) ∧ exec .scan s = .next t ∧ exec .scan s' = .next t' := by
  refine ⟨{ inState .done .idle with ut := [(3, 2)] }, { inState .done .idle with ut := [(3, 3), (4, 1)] },
    _, _, by decide, by decide, ?_, rfl, rfl⟩
  intro i _
  simp only [Memory.read_cons, Memory.read_nil]
  split <;> [decide; (split <;> decide)]

/-- Each class at its boundary. -/
theorem test_witness_CellAnswersTheClass :
    ∃ s : State, 2 ≤ s.ut.read (0#12).toNat ∧ s.ut.read (1#12).toNat = 1 ∧ s.ut.read (2#12).toNat = 0 ∧
      s.ut.read (4095#12).toNat < 0 :=
  ⟨{ inState .done .idle with ut := [(0, 2), (1, 1), (4095, -1)] }, by decide⟩

/-- Each class of a pair at its boundary. -/
theorem test_witness_PairAnswersTheClass :
    ∃ s : State,
      (s.ut.read (2 * (0#11).toNat) = 1 ∧ s.ut.read (2 * (0#11).toNat + 1) = 2) ∧
      (s.ut.read (2 * (1#11).toNat) = -1 ∧ s.ut.read (2 * (1#11).toNat + 1) = 1) ∧
      (s.ut.read (2 * (2#11).toNat) = 0 ∧ s.ut.read (2 * (2#11).toNat + 1) = 0) ∧
      (s.ut.read (2 * (2047#11).toNat) = 0 ∧ s.ut.read (2 * (2047#11).toNat + 1) = -1) :=
  ⟨{ inState .done .idle with ut := [(0, 1), (1, 2), (2, -1), (3, 1), (4095, -1)] }, by decide⟩

theorem test_witness_EventPortLayout : ∀ n, Event.leader 3 = .leader n → n < 2 ^ 2 := by
  intro n h; cases h; decide

/-- A phase move of each kind. -/
theorem test_witness_PhaseMovesOnlyAsTheSpecSays :
    (∃ t, exec .endOp State.reset = .next t ∧ State.reset.phase ≠ .done ∧ t.phase = .done) ∧
    (∃ t, exec .scan State.reset = .next t ∧ State.reset.phase ≠ .fault ∧ t.phase = .fault) ∧
    (∃ t, exec .reset (inState .done .idle) = .next t ∧ t.phase = .decode) ∧
    (∃ t, exec .reset (inState .fault .idle) = .next t ∧ t.phase ≠ .fault) :=
  ⟨⟨_, rfl, by decide, by decide⟩, ⟨_, rfl, by decide, by decide⟩, ⟨_, rfl, by decide⟩, ⟨_, rfl, by decide⟩⟩

/-- A state with every element movable: a DataWrite about to complete in checksummed mode. -/
def writing : State :=
  { inState .decode .waitData with
    cur := 4#13, pend := true, pending := [byteRequest 7#8], cfg := { ck := true, lcw := 32, ucw := 32 } }

/-- What the write does, what each other element's change needs, and both storing forms with the cursor at the ends of
their ranges. -/
theorem test_witness_FrameTable :
    (∃ t, exec (.dataB2 0#2 7#6) writing = .next t ∧ Instr.dataB2 0#2 7#6 ≠ .reset ∧ t.cur ≠ writing.cur ∧
      t.anyw ≠ writing.anyw ∧ t.dstate ≠ writing.dstate ∧ t.pend ≠ writing.pend) ∧
    (∃ t, exec (.addr 5#6) { State.reset with lcnt := 1 } = .next t ∧ t.hold ≠ 0#6 ∧ t.lcnt ≠ 1 ∧
      t.dstate ≠ State.reset.dstate) ∧
    (∃ t, exec .reservedOp State.reset = .next t ∧ t.fcode ≠ State.reset.fcode ∧ t.phase ≠ State.reset.phase) ∧
    (∃ t, exec .scan { overlapping with ovl := 9#12 } = .next t ∧ t.ovl ≠ 9#12) ∧
    ({ writing with cur := 0#13 }.countsAtCursor (.byte 7#8) ∧ { writing with cur := 4095#13 }.countsAtCursor .leader ∧
      ¬{ writing with cur := 4096#13 }.countsAtCursor (.byte 7#8)) ∧
    ({ endRange with cur := 1#13 }.correctsBeforeCursor .endOp ∧
      { endRange with cur := 4096#13 }.correctsBeforeCursor .endOp ∧ ¬endRange.correctsBeforeCursor .endOp) :=
  ⟨⟨_, rfl, by decide, by decide, by decide, by decide, by decide⟩, ⟨_, rfl, by decide, by decide, by decide⟩,
   ⟨_, rfl, by decide, by decide⟩, ⟨_, rfl, by decide +kernel⟩,
   by unfold State.countsAtCursor; decide, by unfold State.correctsBeforeCursor; decide⟩

theorem test_witness_CountersChangeOnlyByWritesAndCorrection :
    (Instr.dataB2 0#2 7#6 ≠ .reset ∧ ∃ t, exec (.dataB2 0#2 7#6) writing = .next t ∧ t.ut.read 4 ≠ writing.ut.read 4) ∧
    (∃ t, exec .endOp { endRange with cur := 5#13 } = .next t ∧ t.ut.read 4 = -1) :=
  ⟨⟨by decide, _, rfl, by decide⟩, ⟨_, rfl, by decide⟩⟩

theorem test_witness_PendingFlagRule :
    (∃ t, exec (.addrB2 0#2 7#6) (inState .decode .waitAddr) = .next t ∧ t.pend = true) ∧
    (∃ t, exec (.dataB2 0#2 7#6) writing = .next t ∧ writing.pend = true ∧ t.pend = false) :=
  ⟨⟨_, rfl, by decide⟩, ⟨_, rfl, by decide, by decide⟩⟩

/-- Two events from one byte. -/
theorem test_witness_EventsAreAppendedInTheSpecsNumbers :
    ∃ t, exec (.field 1#3 0#3) { inState .decode .idle with lcnt := 3 } = .next t ∧ t.events.length = 2 :=
  ⟨_, rfl, by decide⟩

/-- A reset state in checksummed mode with something asked. -/
def fresh : State :=
  { State.reset with
    cfg := { ck := true, lcw := 2, ucw := 3 }, events := [.invalid]
    pending := [byteRequest 0x00#8, byteRequest 0x05#8, endRequest, scanRequest] }

theorem fresh_atReset : fresh.AtReset := by constructor <;> rfl

theorem test_witness_ResetValuesMeetTheInvariants : fresh.AtReset := fresh_atReset

/-- A corrected table in DONE, about to be scanned, with a count of -1. -/
def corrected : State :=
  { inState .done .idle with
    cur := 5#13, anyw := true, ut := [(0, 1), (4, -1)], ovl := 2048#12, pending := [.op 0b11#2 0#8] }

theorem corrected_invariant : corrected.Invariant := by
  refine ⟨by decide, by decide, by decide, by decide, by decide, ?_, by decide, by decide⟩
  intro i _
  change (-1 : Int) ≤ Memory.read [(0, 1), (4, -1)] i
  simp only [Memory.read_cons, Memory.read_nil]
  split <;> [decide; (split <;> decide)]

theorem test_witness_StepKeepsTheInvariants : corrected.Invariant ∧ ∃ t, step corrected = .next t :=
  ⟨corrected_invariant, _, rfl⟩

theorem test_witness_FaultOutputShowsTheFaultPhase : corrected.Invariant := corrected_invariant

theorem test_witness_StepKeepsTheSizes : corrected.Sized ∧ ∃ t, step corrected = .next t := by
  refine ⟨⟨by decide, ?_, by decide, by decide⟩, _, rfl⟩
  intro i _
  change Memory.read [(0, 1), (4, -1)] i ≤ ucwMax Config.initial
  simp only [Memory.read_cons, Memory.read_nil]
  split <;> [decide; (split <;> decide)]

theorem test_witness_InvariantsHoldInEveryReachedState :
    ∃ u t, exec .reset fresh = .next u ∧ Host.Core.run Sys2Proof.core 2 u = Host.Outcome.next t ∧ t.cur = 1#13 :=
  ⟨_, _, rfl, rfl, rfl⟩

theorem test_witness_LeaderRunIsReportedOnce :
    ∃ s : State, s.cfg.wf ∧ 1 ≤ 4 ∧ (0xC8#8 : Byte) ≠ 0x80#8 ∧ s.phase = .decode ∧ s.dstate = .idle ∧ s.lcnt = 0 ∧
      s.pending = (leaderBytes 4).map byteRequest ++ byteRequest 0xC8#8 :: [endRequest] :=
  ⟨{ fresh with pending := (leaderBytes 4).map byteRequest ++ byteRequest 0xC8#8 :: [endRequest] }, by decide⟩

/-- The words reach exactly the top of the table. -/
theorem test_witness_WordsLandAtConsecutiveAddresses :
    ∃ s : State, s.phase = .decode ∧ s.dstate = .idle ∧ (4094#12 : Addr).toNat + [1#12, (2#12 : Addr)].length ≤ 4096 ∧
      s.pending = (wordsBytes 4094#12 [1#12, 2#12]).map byteRequest ++ [endRequest] :=
  ⟨{ fresh with pending := (wordsBytes 4094#12 [1#12, 2#12]).map byteRequest ++ [endRequest] }, by decide⟩

/-- One DataWrite, then END with the correction. -/
theorem test_witness_TableSumIsTheNumberOfDataWrites :
    fresh.AtReset ∧ fresh.pending = [0x00#8, 0x05#8].map byteRequest ++ endRequest :: [scanRequest] ∧
    neverSaturates 2 fresh = true ∧
    ∃ t, Host.Core.run Sys2Proof.core (2 + 1) fresh = Host.Outcome.next t ∧ t.phase = .done ∧
      dataCount fresh.events < dataCount t.events :=
  ⟨fresh_atReset, by decide, by decide, _, rfl, by decide, by decide⟩

theorem test_witness_DataValuesNeverReachTheTable :
    fresh.dstate = .idle ∧ List.Forall₂ sameButValue [.dataWrite 5#12] [.dataWrite 4095#12] ∧
    fresh.pending = ([Record.dataWrite 5#12].flatMap encodeRecord).map byteRequest ++ [endRequest, scanRequest] ∧
    (∃ t, Host.Core.run Sys2Proof.core fresh.pending.length fresh = Host.Outcome.next t) ∧
    ∃ t', Host.Core.run Sys2Proof.core fresh.pending.length
      { fresh with pending :=
          ([Record.dataWrite 4095#12].flatMap encodeRecord).map byteRequest ++ [endRequest, scanRequest] } =
      Host.Outcome.next t' :=
  ⟨by decide, .cons (.inr ⟨_, _, rfl, rfl⟩) .nil, by decide, ⟨_, rfl⟩, ⟨_, rfl⟩⟩

theorem test_witness_BootOrderEndsTheRun :
    fresh.AtReset ∧ fresh.pending = [0x00#8, 0x05#8].map byteRequest ++ endRequest :: scanRequest :: [] :=
  ⟨fresh_atReset, by decide⟩

/-- Host parameters the spec admits: ADDR lines printed and INVALID lines not, counts as they are and 4096 for a failure. -/
def someParams : HostParams where
  leaderText := ⟨"leader ", ""⟩
  leaderDigits := 1
  fieldText := ⟨"field ", ""⟩
  fieldDigits := 1
  dataText := ⟨"", ""⟩
  dataBetween := " "
  addrText := some ⟨"origin ", ""⟩
  invalidText := none
  regionDigits := 4
  labelWidth := 4
  labelPadding := '0'
  labelSeparator := ": "
  negCellChar := '-'
  diagnostic := fun _ _ => "fault"
  resultMap := fun n => n.toNat
  failCode := 4096

theorem someParams_ok : someParams.ok where
  texts := by decide +kernel
  addr := by decide +kernel
  invalid := by decide +kernel
  label := by decide +kernel
  message := fun _ _ _ => by change "fault" ≠ ""; decide +kernel
  no_overlap := rfl
  failure := by decide
  distinct := fun n h => by change n.toNat ≠ 4096; omega

/-- Trace and regions, no map. -/
def traced : HostOptions := { verboseTrace := true, silentReport := false, mapMode := .none }

/-- A reset state with these bytes, END and SCAN asked. -/
def asking (bs : List Byte) : State := { fresh with pending := bs.map byteRequest ++ [endRequest, scanRequest] }

/-- Address 8 written twice, END and SCAN. -/
def twice : State := asking [0x40#8, 0x08#8, 0x00#8, 0x01#8, 0x40#8, 0x08#8, 0x00#8, 0x02#8]

/-- R185, R186: the star stands on the first DATA line after each address, and the region's bounds are octal. The
checksum mode takes one from the last entry, so the run is made without it. -/
theorem test_report_lines :
    (hostReport someParams traced 10 { twice with cfg := Config.initial }).map (·.lines) =
      some ["origin 0010", "*0010 0001", "origin 0010", "*0010 0002", "Overlap in area 0010 to 0010"] := by
  decide +kernel

/-- R183: END without SCAN reports nothing. -/
theorem test_no_report_before_scan : hostReport someParams traced 9 twice = none := by decide +kernel

/-- A field, then a RESET, END and SCAN. -/
def abandoned : State := { fresh with pending := [byteRequest 0xC8#8, .rst, endRequest, scanRequest] }

/-- R14, R193: the run a RESET abandons has no report, and the next run's report has nothing of it. -/
theorem test_reset_starts_a_new_run :
    hostReport someParams traced 4 abandoned = none ∧
    hostReport someParams traced 2 { fresh with events := [.field 1#3], pending := [endRequest, scanRequest] } =
      some { lines := [], errors := [], code := 0 } := by decide +kernel

/-- R191: a truncated run is reported by a message and FAIL_CODE, the trace standing (notes/assumptions/21.md). -/
theorem test_report_of_fault :
    hostReport someParams traced 9 (asking [0xC8#8, 0x40#8]) =
      some { lines := ["field 1"], errors := ["fault"], code := 4096 } := by decide +kernel

theorem test_witness_FaultedRunReportsNoCount :
    someParams.ok ∧ (∃ t, runToEnd 9 (asking [0xC8#8, 0x40#8]).resetBlock = (.faulted, t)) ∧
    ∃ u r, runToEnd 10 twice.resetBlock = (.completed, u) ∧ hostReport someParams traced 10 twice = some r :=
  ⟨someParams_ok, ⟨_, rfl⟩, _, _, rfl, rfl⟩

theorem test_witness_TraceLinesAreOctalAndStarredByTheMark :
    someParams.ok ∧ (traceLine someParams (.data 8#12 511#12 true)).isSome = true ∧
    (traceLine someParams (.leader 0)).isSome = true ∧ (traceLine someParams (.addr 4095#12)).isSome = true :=
  ⟨someParams_ok, rfl, rfl, rfl⟩

/-- The reset state beside one with another past, and a run abandoned by a RESET. -/
theorem test_witness_ReportIsOfTheRunItsResetStarts :
    (∃ s' : State, s'.cfg = twice.cfg ∧ s'.pending = twice.pending ∧ s'.events ≠ twice.events ∧ s'.ut ≠ twice.ut ∧
      (hostReport someParams traced 10 twice).isSome = true) ∧
    abandoned.pending = [byteRequest 0xC8#8] ++ .rst :: [endRequest, scanRequest] ∧
    hostReport someParams traced [byteRequest 0xC8#8].length abandoned = none :=
  ⟨⟨{ twice with events := [], ut := [(3, 1)] }, rfl, rfl, by decide, by decide, by decide +kernel⟩, rfl,
   by decide +kernel⟩

/-- An END without SCAN, and a fault. -/
theorem test_witness_NoResultIsReportedBeforeTheScan :
    (∀ r ∈ twice.pending.take 9, isScan r = false) ∧ (∀ r ∈ (asking [0x40#8]).pending.take 2, isScan r = false) ∧
    (runToEnd 2 (asking [0x40#8]).resetBlock).1 = .faulted := by decide

theorem test_witness_CompletedRunIsReportedWhole :
    someParams.ok ∧ ∃ t, runToEnd 10 { twice with cfg := Config.initial }.resetBlock = (.completed, t) ∧ t.ovl = 1#12 :=
  ⟨someParams_ok, _, rfl, by decide +kernel⟩

end Sys2Proof.Tests
end

section
/-! A step as a function of the host's next request. What the decoder and the dispatch make of a request is said here
once (40_record_decoder.md R120; 30_encoding.md R100, R101), so that a proof about a step splits over the request and the
shared operations instead of over the sixteen instructions. -/

namespace Sys2Proof.Machine

/-- The state that a request leaves once the block has carried it out. `step_of_pending` ties it to the model. -/
def State.carryOut (s : State) : Request → State
  | .op code b =>
    if code = 0b00#2 then s.gate (some .decode) 0b00#2 fun s => s.takeByte b
    else if code = 0b01#2 then s.gate (some .decode) 0b01#2 State.endStream
    else if code = 0b10#2 then s.gate (some .done) 0b10#2 State.scanTable
    else s.gate none 0b11#2 id
  | .rst => s.resetBlock
  | .count a => s.answer (.count (s.ut.read a.toNat))
  | .cell a => s.answer (.cell (cellClass (s.ut.read a.toNat)))
  | .pair j => s.answer (.pair (pairClass (s.ut.read (2 * j.toNat)) (s.ut.read (2 * j.toNat + 1))))
  | .reg n => s.answer (.reg (statusRegister n s))

/-- At a record boundary the instruction a byte decodes to does what the byte does. -/
theorem exec_decodeFirst {s : State} (hp : s.phase = .decode) (hd : s.dstate = .idle) (b : Byte) :
    exec (decodeFirst b) s = .next (s.firstByte b) := by
  unfold decodeFirst State.firstByte
  split_ifs <;> exact congrArg _ (State.present_own hp hd _ _)

/-- Whatever a byte decodes to, it is carried out as the operation BYTE (40_record_decoder.md R120). -/
theorem exec_decodeByte (s : State) (b : Byte) :
    exec (decodeByte s.phase s.dstate b) s = .next (s.gate (some .decode) 0b00#2 fun s => s.takeByte b) := by
  cases hp : s.phase with
  | done => rfl
  | fault => rfl
  | decode =>
    rw [State.gate_legal hp (by decide)]
    cases hd : s.dstate with
    | idle => rw [State.takeByte_idle hd]; exact exec_decodeFirst hp hd b
    | waitAddr => rw [State.takeByte_waitAddr hd]; exact congrArg _ (State.present_own hp hd _ _)
    | waitData => rw [State.takeByte_waitData hd]; exact congrArg _ (State.present_own hp hd _ _)

theorem exec_decode (s : State) (r : Request) : exec (decode s.phase s.dstate r) s = .next (s.carryOut r) := by
  cases r with
  | op code b =>
    simp only [decode, State.carryOut]
    split_ifs
    · exact exec_decodeByte s b
    · rfl
    · rfl
    · rfl
  | rst => rfl
  | count a => rfl
  | cell a => rfl
  | pair j => rfl
  | reg n => rfl

theorem step_of_pending {s : State} {r : Request} {rest : List Request} (h : s.pending = r :: rest) :
    step s = .next ({ s with pending := rest }.carryOut r) := by
  rw [step, State.nextRequest_some h]
  exact exec_decode { s with pending := rest } r

theorem step_of_nothing_pending {s : State} (h : s.pending = []) : step s = .next s := by
  rw [step, State.nextRequest_none h]

/-- What holds of the state a request finds, and of every state that the operations behind it can leave, holds after the
request. -/
theorem State.carryOut_induct {P : State → Prop} {s : State} (r : Request) (ignored : P s)
    (command : ∀ info, P (s.raise .cmd info)) (byte : ∀ b, s.phase = .decode → P (s.takeByte b))
    (finish : s.phase = .decode → P s.endStream) (scan : s.phase = .done → P s.scanTable)
    (reset : P s.resetBlock) (read : ∀ v, P (s.answer v)) : P (s.carryOut r) := by
  have gated : ∀ (legal : Option Phase) (op : BitVec 2) (body : State → State),
      (legal = some s.phase → P (body s)) → P (s.gate legal op body) := by
    intro legal op body hbody
    rcases s.gate_cases legal op body with ⟨_, h⟩ | ⟨_, hlegal, h⟩ | ⟨_, _, h⟩
    · rwa [h]
    · rw [h]; exact hbody hlegal
    · rw [h]; exact command _
  cases r with
  | op code b =>
    simp only [State.carryOut]
    split_ifs
    · exact gated _ _ _ fun h => byte b (Option.some.inj h).symm
    · exact gated _ _ _ fun h => finish (Option.some.inj h).symm
    · exact gated _ _ _ fun h => scan (Option.some.inj h).symm
    · exact gated _ _ _ fun _ => ignored
  | rst => exact reset
  | count a => exact read _
  | cell a => exact read _
  | pair j => exact read _
  | reg n => exact read _

end Sys2Proof.Machine
end

section
/-! O46: every operation keeps the widths and the table's canonical form. -/

namespace Sys2Proof.Machine

theorem ucwMax_nonneg (c : Config) : 0 ≤ ucwMax c := by
  have : (0 : Int) < 2 ^ (c.ucw - 1) := by positivity
  unfold ucwMax
  omega

theorem satIncLcw_le {c : Config} {v : Nat} (h : v ≤ lcntMax c) : satIncLcw c v ≤ lcntMax c := by
  unfold satIncLcw
  split <;> omega

theorem satIncUcw_le {c : Config} {v : Int} (h : v ≤ ucwMax c) : satIncUcw c v ≤ ucwMax c := by
  unfold satIncUcw
  split <;> omega

theorem Memory.read_write_le {m : Memory} {bound : Int} (hm : ∀ j < 4096, m.read j ≤ bound) (i : Nat) {v : Int}
    (hv : v ≤ bound) : ∀ j < 4096, (m.write i v).read j ≤ bound := by
  intro j hj
  rw [Memory.read_write]
  split
  · exact hv
  · exact hm j hj

namespace State.Sized

variable {s : State} (h : s.Sized)
include h

/-- The sizes ask nothing of the elements other than LCNT, the table, FCODE and FINFO. -/
theorem of_same {t : State} (hcfg : t.cfg = s.cfg) (hlcnt : t.lcnt ≤ s.lcnt) (hut : t.ut = s.ut)
    (hfcode : t.fcode = s.fcode) (hfinfo : t.finfo = s.finfo) : t.Sized where
  leader_count_fits := by rw [hcfg]; exact hlcnt.trans h.leader_count_fits
  counts_fit := by rw [hcfg, hut]; exact h.counts_fit
  no_info_without_fault := by rw [hfcode, hfinfo]; exact h.no_info_without_fault
  table_canonical := by rw [hut]; exact h.table_canonical

/-- One count written inside the table, no larger than UCW_MAX. -/
theorem of_write {t : State} {i : Nat} {v : Int} (hi : i < 4096) (hv : v ≤ ucwMax s.cfg) (hcfg : t.cfg = s.cfg)
    (hlcnt : t.lcnt ≤ s.lcnt) (hut : t.ut = s.ut.write i v) (hfcode : t.fcode = s.fcode)
    (hfinfo : t.finfo = s.finfo) : t.Sized where
  leader_count_fits := by rw [hcfg]; exact hlcnt.trans h.leader_count_fits
  counts_fit := by rw [hcfg, hut]; exact Memory.read_write_le h.counts_fit i hv
  no_info_without_fault := by rw [hfcode, hfinfo]; exact h.no_info_without_fault
  table_canonical := by rw [hut]; exact Memory.wf_write h.table_canonical hi v

/-- Fault entry leaves a fault code, so FINFO is free. -/
theorem raise {f : FaultCode} (hf : f ≠ .none) (info : Word16) : (s.raise f info).Sized :=
  ⟨h.leader_count_fits, h.counts_fit, fun hnone => absurd hnone hf, h.table_canonical⟩

theorem leaderByte : s.leaderByte.Sized :=
  ⟨satIncLcw_le h.leader_count_fits, h.counts_fit, h.no_info_without_fault, h.table_canonical⟩

theorem firstByte (b : Byte) : (s.firstByte b).Sized := by
  rcases s.firstByte_cases b with ⟨_, hb⟩ | ⟨_, _, hb⟩ | ⟨_, _, hb⟩ | ⟨_, _, hb⟩ | ⟨_, _, hb⟩ <;> rw [hb]
  · exact h.leaderByte
  · rw [State.fieldByte_eq]; exact h.of_same rfl (Nat.zero_le _) rfl rfl rfl
  · rw [State.invalidByte_eq]; exact h.of_same rfl (Nat.zero_le _) rfl rfl rfl
  · rw [State.addrHigh_eq]; exact h.of_same rfl (Nat.zero_le _) rfl rfl rfl
  · rw [State.dataHigh_eq]; exact h.of_same rfl (Nat.zero_le _) rfl rfl rfl

/-- A DataWrite saturates at UCW_MAX, and past the table it writes no entry. -/
theorem dataLow (l : Half) : (s.dataLow l).Sized := by
  rcases Nat.lt_or_ge 4095 s.cur.toNat with hcur | hcur
  · rw [State.dataLow_range hcur]; exact h.raise (by decide) _
  · have hi : s.cur.toNat < 4096 := by omega
    rw [State.dataLow_counts hcur]
    exact h.of_write hi (satIncUcw_le (h.counts_fit _ hi)) rfl le_rfl rfl rfl rfl

theorem takeByte (b : Byte) : (s.takeByte b).Sized := by
  cases hd : s.dstate with
  | idle => rw [State.takeByte_idle hd]; exact h.firstByte b
  | waitAddr =>
    rw [State.takeByte_waitAddr hd, State.addrLow_eq]
    exact h.of_same rfl le_rfl rfl rfl rfl
  | waitData => rw [State.takeByte_waitData hd]; exact h.dataLow _

/-- The correction takes one from a count inside the table. -/
theorem endStream : s.endStream.Sized := by
  rcases s.endStream_cases with ⟨_, he⟩ | ⟨_, he⟩ | ⟨_, _, he⟩ | ⟨_, _, _, hlo, hhi, he⟩ | ⟨_, _, _, _, he⟩ <;> rw [he]
  · exact h.raise (by decide) _
  · exact h.raise (by decide) _
  · exact h.of_same rfl (Nat.zero_le _) rfl rfl rfl
  · have hi : s.cur.toNat - 1 < 4096 := by omega
    have hv : s.ut.read (s.cur.toNat - 1) - 1 ≤ ucwMax s.cfg := by have := h.counts_fit _ hi; omega
    exact h.of_write hi hv rfl (Nat.zero_le _) rfl rfl rfl
  · exact ⟨Nat.zero_le _, h.counts_fit, nofun, h.table_canonical⟩

omit h in
theorem resetBlock (s : State) : s.resetBlock.Sized :=
  ⟨Nat.zero_le _, fun _ _ => ucwMax_nonneg s.cfg, fun _ => rfl, rfl⟩

theorem carryOut (r : Request) : (s.carryOut r).Sized :=
  State.carryOut_induct r
    (ignored := h)
    (command := h.raise (by decide))
    (byte := fun b _ => h.takeByte b)
    (finish := fun _ => h.endStream)
    (scan := fun _ => h.of_same rfl le_rfl rfl rfl rfl)
    (reset := resetBlock s)
    (read := fun _ => h.of_same rfl le_rfl rfl rfl rfl)

end State.Sized

/-- Settles O46: it holds. Nothing asked changes nothing, and every request keeps the sizes by `State.Sized.carryOut`. -/
theorem stepKeepsTheSizes : Obligations.StepKeepsTheSizes := by
  intro s t h hstep
  cases hp : s.pending with
  | nil =>
    rw [step_of_nothing_pending hp] at hstep
    exact Host.Outcome.next.inj hstep ▸ h
  | cons r rest =>
    have issued : { s with pending := rest }.Sized := h.of_same rfl le_rfl rfl rfl rfl
    rw [step_of_pending hp] at hstep
    exact Host.Outcome.next.inj hstep ▸ issued.carryOut r

end Sys2Proof.Machine
end

section
/-! O59. No operation reads the events already sent or the last read's answer, so a run carried on from a past does what
it does without one. -/

namespace Sys2Proof.Machine

/-- `s` with a past before it: events sent earlier, and an earlier read's answer where `s` has none of its own. -/
def State.withPast (s : State) (sent : List Event) (answered : Option ReadValue) : State :=
  { s with events := sent ++ s.events, readOut := s.readOut.or answered }

namespace State

variable (s : State) (sent : List Event) (answered : Option ReadValue)

@[simp] theorem withPast_phase : (s.withPast sent answered).phase = s.phase := rfl
@[simp] theorem withPast_dstate : (s.withPast sent answered).dstate = s.dstate := rfl
@[simp] theorem withPast_cur : (s.withPast sent answered).cur = s.cur := rfl
@[simp] theorem withPast_anyw : (s.withPast sent answered).anyw = s.anyw := rfl
@[simp] theorem withPast_cfg : (s.withPast sent answered).cfg = s.cfg := rfl
@[simp] theorem withPast_pending : (s.withPast sent answered).pending = s.pending := rfl
@[simp] theorem withPast_events : (s.withPast sent answered).events = sent ++ s.events := rfl

/-! ### Every operation commutes with a past -/

theorem emit_withPast (e : Event) : (s.withPast sent answered).emit e = (s.emit e).withPast sent answered := by
  simp [emit, withPast]

theorem flushLeader_withPast :
    (s.withPast sent answered).flushLeader = s.flushLeader.withPast sent answered := by
  simp [flushLeader_eq, withPast]

theorem firstByte_withPast (b : Byte) :
    (s.withPast sent answered).firstByte b = (s.firstByte b).withPast sent answered := by
  unfold firstByte
  split_ifs
  · rfl
  · rw [fieldByte, flushLeader_withPast, emit_withPast]; rfl
  · rw [invalidByte, flushLeader_withPast, emit_withPast]; rfl
  · rw [addrHigh, flushLeader_withPast]; rfl
  · rw [dataHigh, flushLeader_withPast]; rfl

theorem addrLow_withPast (l : Half) :
    (s.withPast sent answered).addrLow l = (s.addrLow l).withPast sent answered := by
  simp [addrLow_eq, withPast]

theorem dataLow_withPast (l : Half) :
    (s.withPast sent answered).dataLow l = (s.dataLow l).withPast sent answered := by
  rcases Nat.lt_or_ge 4095 s.cur.toNat with hcur | hcur
  · rw [dataLow_range hcur, dataLow_range (s := s.withPast sent answered) hcur]; rfl
  · rw [dataLow_counts hcur, dataLow_counts (s := s.withPast sent answered) hcur]
    simp [withPast]

theorem takeByte_withPast (b : Byte) :
    (s.withPast sent answered).takeByte b = (s.takeByte b).withPast sent answered := by
  cases hd : s.dstate with
  | idle => rw [takeByte_idle hd, takeByte_idle (by simpa using hd), firstByte_withPast]
  | waitAddr => rw [takeByte_waitAddr hd, takeByte_waitAddr (by simpa using hd), addrLow_withPast]
  | waitData => rw [takeByte_waitData hd, takeByte_waitData (by simpa using hd), dataLow_withPast]

theorem finishStream_withPast :
    (s.withPast sent answered).finishStream = s.finishStream.withPast sent answered := by
  simp only [finishStream, flushLeader_withPast, withPast_cfg, withPast_anyw]
  generalize s.flushLeader = flushed
  by_cases hc : s.cfg.ck = true ∧ s.anyw = true
  · rw [if_pos hc, if_pos hc]
    by_cases hr : 1 ≤ flushed.cur.toNat ∧ flushed.cur.toNat ≤ 4096
    · obtain ⟨hlo, hhi⟩ := hr
      rw [checksumCorrection_decrements hlo hhi,
        checksumCorrection_decrements (s := flushed.withPast sent answered) hlo hhi]
      rfl
    · have hout : flushed.cur.toNat = 0 ∨ 4096 < flushed.cur.toNat := by omega
      rw [checksumCorrection_range hout, checksumCorrection_range (s := flushed.withPast sent answered) hout]
      rfl
  · rw [if_neg hc, if_neg hc]
    rfl

theorem endStream_withPast :
    (s.withPast sent answered).endStream = s.endStream.withPast sent answered := by
  cases hd : s.dstate with
  | idle => simp only [endStream, withPast_dstate, hd, finishStream_withPast]
  | waitAddr => simp only [endStream, withPast_dstate, hd]; rfl
  | waitData => simp only [endStream, withPast_dstate, hd]; rfl

theorem scanTable_withPast :
    (s.withPast sent answered).scanTable = s.scanTable.withPast sent answered := by
  simp [scanTable, withPast]

theorem gate_withPast {body : State → State}
    (hbody : body (s.withPast sent answered) = (body s).withPast sent answered) (legal : Option Phase)
    (op : BitVec 2) :
    (s.withPast sent answered).gate legal op body = (s.gate legal op body).withPast sent answered := by
  rcases s.gate_cases legal op body with ⟨hp, h⟩ | ⟨hp, hlegal, h⟩ | ⟨hp, hlegal, h⟩
  · rw [h, gate_fault (by simpa using hp)]
  · rw [h, ← hbody, hlegal, gate_legal (s.withPast_phase sent answered) hp]
  · rw [h, gate_illegal (by simpa using hp) (by simpa using hlegal)]; rfl

theorem carryOut_withPast (r : Request) :
    (s.withPast sent answered).carryOut r = (s.carryOut r).withPast sent answered := by
  cases r with
  | op code b =>
    simp only [carryOut]
    split_ifs
    · exact gate_withPast _ _ _ (takeByte_withPast _ _ _ b) _ _
    · exact gate_withPast _ _ _ (endStream_withPast _ _ _) _ _
    · exact gate_withPast _ _ _ (scanTable_withPast _ _ _) _ _
    · exact gate_withPast _ _ _ rfl _ _
  | rst => rfl
  | count a => rfl
  | cell a => rfl
  | pair j => rfl
  | reg n => rfl

end State

theorem step_withPast {s t : State} (sent : List Event) (answered : Option ReadValue) (h : step s = .next t) :
    step (s.withPast sent answered) = .next (t.withPast sent answered) := by
  cases hp : s.pending with
  | nil =>
    rw [step_of_nothing_pending hp] at h
    rw [step_of_nothing_pending (s := s.withPast sent answered) hp, Host.Outcome.next.inj h]
  | cons r rest =>
    rw [step_of_pending hp] at h
    rw [step_of_pending (s := s.withPast sent answered) hp, ← Host.Outcome.next.inj h, ← State.carryOut_withPast]
    rfl

end Sys2Proof.Machine
end

section
/-! How a run goes on by one request, and what its end does not depend on. -/

namespace Sys2Proof.Machine

theorem State.firstByte_pending (s : State) (b : Byte) : (s.firstByte b).pending = s.pending := by
  rcases s.firstByte_cases b with ⟨_, hb⟩ | ⟨_, _, hb⟩ | ⟨_, _, hb⟩ | ⟨_, _, hb⟩ | ⟨_, _, hb⟩ <;> rw [hb]
  · rfl
  · rw [State.fieldByte_eq]
  · rw [State.invalidByte_eq]
  · rw [State.addrHigh_eq]
  · rw [State.dataHigh_eq]

theorem State.dataLow_pending (s : State) (l : Half) : (s.dataLow l).pending = s.pending := by
  rcases Nat.lt_or_ge 4095 s.cur.toNat with hcur | hcur
  · rw [State.dataLow_range hcur]; rfl
  · rw [State.dataLow_counts hcur]

theorem State.takeByte_pending (s : State) (b : Byte) : (s.takeByte b).pending = s.pending := by
  cases hd : s.dstate with
  | idle => rw [State.takeByte_idle hd, State.firstByte_pending]
  | waitAddr => rw [State.takeByte_waitAddr hd, State.addrLow_eq]
  | waitData => rw [State.takeByte_waitData hd, State.dataLow_pending]

theorem State.endStream_pending (s : State) : s.endStream.pending = s.pending := by
  rcases s.endStream_cases with ⟨_, he⟩ | ⟨_, he⟩ | ⟨_, _, he⟩ | ⟨_, _, _, _, _, he⟩ | ⟨_, _, _, _, he⟩ <;> simp [he]

theorem State.carryOut_pending (s : State) (r : Request) : (s.carryOut r).pending = s.pending :=
  State.carryOut_induct (P := fun t => t.pending = s.pending) r
    (ignored := rfl)
    (command := fun _ => rfl)
    (byte := fun b _ => s.takeByte_pending b)
    (finish := fun _ => s.endStream_pending)
    (scan := fun _ => rfl)
    (reset := rfl)
    (read := fun _ => rfl)

/-- A step takes just the request that it carries out. -/
theorem step_takes_request {s : State} {r : Request} {rest : List Request} (h : s.pending = r :: rest) :
    ∃ t, step s = .next t ∧ t.pending = rest :=
  ⟨_, step_of_pending h, State.carryOut_pending _ r⟩

theorem runToEnd_of_nothing_pending {s : State} (h : s.pending = []) (k : Nat) : runToEnd k s = (.notEnded, s) := by
  cases k with
  | zero => rfl
  | succ k => simp [runToEnd, State.nextRequest_none h]

theorem runToEnd_succ {s t : State} {r : Request} {rest : List Request} (h : s.pending = r :: rest)
    (hr : isReset r = false) (hstep : step s = .next t) (k : Nat) :
    runToEnd (k + 1) s =
      if s.phase = .done ∧ isScan r = true then (.completed, t)
      else if t.phase = .fault then (.faulted, t)
      else runToEnd k t := by
  simp [runToEnd, State.nextRequest_some h, hr, hstep]

theorem isReset_iff {r : Request} : isReset r = true ↔ r = .rst := by cases r <;> simp [isReset]

/-- A run's course is that of the run without its past. -/
theorem runToEnd_withPast (sent : List Event) (answered : Option ReadValue) (k : Nat) (s : State) :
    runToEnd k (s.withPast sent answered) =
      ((runToEnd k s).1, (runToEnd k s).2.withPast sent answered) := by
  induction k generalizing s with
  | zero => rfl
  | succ k ih =>
    cases hp : s.pending with
    | nil => rw [runToEnd_of_nothing_pending hp, runToEnd_of_nothing_pending (s := s.withPast sent answered) hp]
    | cons r rest =>
      cases hr : isReset r with
      | true =>
        obtain rfl := isReset_iff.1 hr
        rw [runToEnd_reset hp, runToEnd_reset (s := s.withPast sent answered) hp]
      | false =>
        obtain ⟨t, hstep, _⟩ := step_takes_request hp
        rw [runToEnd_succ hp hr hstep,
          runToEnd_succ (s := s.withPast sent answered) hp hr (step_withPast sent answered hstep), ih,
          State.withPast_phase, State.withPast_phase]
        split_ifs <;> rfl

/-- A run that has not ended by the RESET asked after `before` never ends: no step goes past that RESET. -/
theorem runToEnd_abandoned (before rest : List Request) (s : State) (h : s.pending = before ++ .rst :: rest)
    (hrun : (runToEnd before.length s).1 = .notEnded) (k : Nat) : (runToEnd k s).1 = .notEnded := by
  induction before generalizing s k with
  | nil => rw [runToEnd_reset h]
  | cons r before ih =>
    cases k with
    | zero => rfl
    | succ k =>
      cases hr : isReset r with
      | true =>
        obtain rfl := isReset_iff.1 hr
        rw [runToEnd_reset h]
      | false =>
        obtain ⟨t, hstep, ht⟩ := step_takes_request h
        rw [List.length_cons, runToEnd_succ h hr hstep] at hrun
        rw [runToEnd_succ h hr hstep]
        split_ifs at hrun ⊢
        exact ih t ht hrun k

end Sys2Proof.Machine
end

section
/-! O59: a report is of the one run its RESET starts. -/

namespace Sys2Proof.Machine

/-- The state after RESET with no event sent and nothing read: all that a report depends on. -/
def State.fresh (c : Config) (requests : List Request) : State :=
  { State.reset with cfg := c, pending := requests }

theorem State.resetBlock_eq_fresh_withPast (s : State) :
    s.resetBlock = (State.fresh s.cfg s.pending).resetBlock.withPast s.events s.readOut := by
  simp [State.resetBlock, State.fresh, State.withPast, State.reset]

theorem hostReport_eq_none_iff (p : HostParams) (o : HostOptions) (k : Nat) (s : State) :
    hostReport p o k s = none ↔ (runToEnd k s.resetBlock).1 = .notEnded := by
  rcases h : runToEnd k s.resetBlock with ⟨_ | _ | _, t⟩
  · simp [hostReport_notEnded h]
  · simp [hostReport_completed h]
  · simp [hostReport_faulted h]

theorem hostReport_eq_fresh (p : HostParams) (o : HostOptions) (k : Nat) (s : State) :
    hostReport p o k s = hostReport p o k (State.fresh s.cfg s.pending) := by
  have hrun := runToEnd_withPast s.events s.readOut k (State.fresh s.cfg s.pending).resetBlock
  rw [← State.resetBlock_eq_fresh_withPast] at hrun
  rcases h : runToEnd k (State.fresh s.cfg s.pending).resetBlock with ⟨_ | _ | _, t⟩ <;> rw [h] at hrun
  · rw [hostReport_notEnded h, hostReport_notEnded hrun]
  · rw [hostReport_completed h, hostReport_completed hrun, State.withPast_events, List.drop_left]
    rfl
  · rw [hostReport_faulted h, hostReport_faulted hrun, State.withPast_events, List.drop_left]
    rfl

/-- Settles O59: it holds. The state before the RESET is a past that no operation reads, and the run never goes past the
RESET that abandons it. -/
theorem reportIsOfTheRunItsResetStarts : Obligations.ReportIsOfTheRunItsResetStarts := by
  intro p o k s
  constructor
  · intro s' hcfg hpending
    rw [hostReport_eq_fresh p o k s', hostReport_eq_fresh p o k s, hcfg, hpending]
  · intro before rest hpending hnone
    rw [hostReport_eq_none_iff] at hnone ⊢
    exact runToEnd_abandoned before rest s.resetBlock hpending hnone k

end Sys2Proof.Machine
end

section
/-! What an instruction of any form can make of a state, said once for every instruction, those that the block's phase or
sub-state does not read among them: the rules of the whole machine follow from it by its cases. -/

namespace Sys2Proof.Machine

/-! ### What a first byte leaves unchanged -/

/-- A byte at a record boundary writes DSTATE, HOLD, LCNT and the events alone (40_record_decoder.md R121 to R126). -/
theorem State.firstByte_frame (s : State) (b : Byte) :
    s.firstByte b =
      { s with
        dstate := (s.firstByte b).dstate, hold := (s.firstByte b).hold, lcnt := (s.firstByte b).lcnt
        events := (s.firstByte b).events } := by
  rcases s.firstByte_cases b with ⟨_, hb⟩ | ⟨_, _, hb⟩ | ⟨_, _, hb⟩ | ⟨_, _, hb⟩ | ⟨_, _, hb⟩ <;> rw [hb]
  · rfl
  · rw [State.fieldByte_eq]
  · rw [State.invalidByte_eq]
  · rw [State.addrHigh_eq]
  · rw [State.dataHigh_eq]

section
variable (s : State) (b : Byte)

@[simp] theorem State.firstByte_phase : (s.firstByte b).phase = s.phase := by rw [State.firstByte_frame]
@[simp] theorem State.firstByte_cur : (s.firstByte b).cur = s.cur := by rw [State.firstByte_frame]
@[simp] theorem State.firstByte_pend : (s.firstByte b).pend = s.pend := by rw [State.firstByte_frame]
@[simp] theorem State.firstByte_anyw : (s.firstByte b).anyw = s.anyw := by rw [State.firstByte_frame]
@[simp] theorem State.firstByte_ut : (s.firstByte b).ut = s.ut := by rw [State.firstByte_frame]
@[simp] theorem State.firstByte_ovl : (s.firstByte b).ovl = s.ovl := by rw [State.firstByte_frame]
@[simp] theorem State.firstByte_fcode : (s.firstByte b).fcode = s.fcode := by rw [State.firstByte_frame]

end

/-- Every first byte but the leader's own ends the run (40_record_decoder.md R122). -/
theorem State.firstByte_lcnt {b : Byte} (hb : b ≠ 0x80#8) (s : State) : (s.firstByte b).lcnt = 0 := by
  rcases s.firstByte_cases b with ⟨h80, _⟩ | ⟨_, _, h⟩ | ⟨_, _, h⟩ | ⟨_, _, h⟩ | ⟨_, _, h⟩
  · exact absurd h80 hb
  · rw [h, State.fieldByte_eq]
  · rw [h, State.invalidByte_eq]
  · rw [h, State.addrHigh_eq]
  · rw [h, State.dataHigh_eq]

/-- What a byte in DECODE can do: the step of a first byte, a completed AddressSet, an accumulated DataWrite, or a RANGE
entry (40_record_decoder.md R120, R127, R128). -/
theorem State.takeByte_cases (s : State) (b : Byte) :
    (s.dstate = .idle ∧ s.takeByte b = s.firstByte b) ∨
    (s.dstate = .waitAddr ∧ s.takeByte b = s.addrLow (byteHalf b)) ∨
    (s.dstate = .waitData ∧ s.cur.toNat ≤ 4095 ∧ s.takeByte b =
      { s with
        ut := s.ut.write s.cur.toNat (satIncUcw s.cfg (s.ut.read s.cur.toNat))
        events := s.events ++ [.data (cursorAddr s.cur) (join s.hold (byteHalf b)) s.pend]
        anyw := true, pend := false, cur := s.cur + 1#13, dstate := .idle }) ∨
    (s.dstate = .waitData ∧ 4095 < s.cur.toNat ∧ s.takeByte b = s.raise .range (indexInfo s.cur.toNat)) := by
  cases hd : s.dstate with
  | idle => exact .inl ⟨rfl, State.takeByte_idle hd b⟩
  | waitAddr => exact .inr (.inl ⟨rfl, State.takeByte_waitAddr hd b⟩)
  | waitData =>
    rw [State.takeByte_waitData hd]
    rcases Nat.lt_or_ge 4095 s.cur.toNat with hcur | hcur
    · exact .inr (.inr (.inr ⟨rfl, hcur, State.dataLow_range hcur _⟩))
    · exact .inr (.inr (.inl ⟨rfl, hcur, State.dataLow_counts hcur _⟩))

/-! ### The record steps as bytes -/

theorem State.leaderByte_eq_firstByte (s : State) : s.leaderByte = s.firstByte 0x80#8 := rfl

theorem State.invalidByte_eq_firstByte (s : State) : s.invalidByte = s.firstByte 0x81#8 := rfl

theorem State.fieldByte_eq_firstByte (s : State) (f : BitVec 3) :
    s.fieldByte f = s.firstByte (0b11#2 ++ f ++ 0#3) := by
  have hbits : ∀ f : BitVec 3, 0b11#2 ++ f ++ 0#3 ≠ 0x80#8 ∧ byteTag (0b11#2 ++ f ++ 0#3) = 0b11#2 ∧
      byteField (0b11#2 ++ f ++ 0#3) = f := by decide
  obtain ⟨hne, htag, hfield⟩ := hbits f
  rw [State.firstByte, if_neg hne, if_pos htag, hfield]

theorem byteTag_tagged (t : BitVec 2) (h : Half) : byteTag (tagged t h) = t := by
  revert t h; decide

theorem byteHalf_tagged (t : BitVec 2) (h : Half) : byteHalf (tagged t h) = h := by
  revert t h; decide

/-- A byte with another tag than the leader's is not the leader byte. -/
theorem tagged_ne_leader {t : BitVec 2} (ht : t ≠ 0b10#2) (h : Half) : tagged t h ≠ 0x80#8 := by
  intro heq
  have htag := byteTag_tagged t h
  rw [heq] at htag
  exact ht htag.symm

theorem State.addrHigh_eq_firstByte (s : State) (h : Half) : s.addrHigh h = s.firstByte (tagged 0b01#2 h) := by
  simp [State.firstByte, tagged_ne_leader, byteTag_tagged, byteHalf_tagged]

theorem State.dataHigh_eq_firstByte (s : State) (h : Half) : s.dataHigh h = s.firstByte (tagged 0b00#2 h) := by
  simp [State.firstByte, tagged_ne_leader, byteTag_tagged, byteHalf_tagged]

/-! ### The effects of an instruction -/

/-- What the instruction `i` can make of the state `s`. `effect_of_exec` ties it to the model. -/
inductive Effect (s : State) : Instr → State → Prop where
  /-- an operation in FAULT is ignored (60_exceptions.md R205) -/
  | ignored (i : Instr) : s.phase = .fault → Effect s i s
  /-- an operation in a phase that does not allow it takes the command fault (60_exceptions.md R203) -/
  | command (i : Instr) (info : Word16) : s.phase ≠ .fault → Effect s i (s.raise .cmd info)
  /-- a byte in DECODE is taken by the sub-state (40_record_decoder.md R120) -/
  | byte (i : Instr) (b : Byte) : s.phase = .decode → isByte (encode i) = true → Effect s i (s.takeByte b)
  /-- END in DECODE (40_record_decoder.md R129) -/
  | finish : s.phase = .decode → Effect s .endOp s.endStream
  /-- SCAN in DONE (41_accumulator_scanner.md R152) -/
  | scan : s.phase = .done → Effect s .scan s.scanTable
  /-- RESET in every phase (70_reset_and_hazards.md R230) -/
  | reset : Effect s .reset s.resetBlock
  /-- a read port in every phase (30_encoding.md R101) -/
  | read (i : Instr) (v : ReadValue) : Effect s i (s.answer v)

namespace Effect

variable {s : State} {i : Instr}

/-- Behind the phase check, only what the body makes of a legal phase is left to show. -/
theorem gate {legal : Option Phase} (op : BitVec 2) {body : State → State}
    (hbody : legal = some s.phase → Effect s i (body s)) : Effect s i (s.gate legal op body) := by
  rcases s.gate_cases legal op body with ⟨hp, h⟩ | ⟨_, hlegal, h⟩ | ⟨hp, _, h⟩ <;> rw [h]
  · exact ignored i hp
  · exact hbody hlegal
  · exact command i _ hp

/-- A record instruction acts as some byte does, where its own step is a byte's in the sub-state `d`. -/
theorem present {d : DState} (b b' : Byte) {body : State → State} (hi : isByte (encode i) = true)
    (hbody : s.dstate = d → body s = s.takeByte b') : Effect s i (s.present d b body) := by
  rw [State.present_eq]
  refine gate _ fun hp => ?_
  have hp : s.phase = .decode := (Option.some.inj hp).symm
  by_cases hd : s.dstate = d
  · rw [if_pos hd, hbody hd]; exact byte i b' hp hi
  · rw [if_neg hd]; exact byte i b hp hi

end Effect

/-- All that an instruction can do, whatever its operands and the state. -/
theorem effect_of_exec {i : Instr} {s t : State} (ht : exec i s = .next t) : Effect s i t := by
  cases i <;> obtain rfl := Host.Outcome.next.inj ht
  case leader =>
    exact Effect.present _ 0x80#8 rfl fun hd => by rw [State.takeByte_idle hd, State.leaderByte_eq_firstByte]
  case field f x =>
    exact Effect.present _ (0b11#2 ++ f ++ 0#3) rfl fun hd => by
      rw [State.takeByte_idle hd, State.fieldByte_eq_firstByte]
  case invalid n =>
    exact Effect.present _ 0x81#8 rfl fun hd => by rw [State.takeByte_idle hd, State.invalidByte_eq_firstByte]
  case addr h =>
    exact Effect.present _ (tagged 0b01#2 h) rfl fun hd => by
      rw [State.takeByte_idle hd, State.addrHigh_eq_firstByte]
  case addrB2 t l =>
    exact Effect.present _ (tagged t l) rfl fun hd => by rw [State.takeByte_waitAddr hd, byteHalf_tagged]
  case data h =>
    exact Effect.present _ (tagged 0b00#2 h) rfl fun hd => by
      rw [State.takeByte_idle hd, State.dataHigh_eq_firstByte]
  case dataB2 t l =>
    exact Effect.present _ (tagged t l) rfl fun hd => by rw [State.takeByte_waitData hd, byteHalf_tagged]
  case byte b => exact Effect.gate _ fun hp => Effect.byte _ b (Option.some.inj hp).symm rfl
  case endOp => exact Effect.gate _ fun hp => Effect.finish (Option.some.inj hp).symm
  case scan => exact Effect.gate _ fun hp => Effect.scan (Option.some.inj hp).symm
  case reservedOp => exact Effect.gate _ nofun
  case reset => exact Effect.reset
  case count a => exact Effect.read _ _
  case cell a => exact Effect.read _ _
  case pair j => exact Effect.read _ _
  case reg n => exact Effect.read _ _

end Sys2Proof.Machine
end

section
/-! O39, O41, O42: the rules of PHASE, of the usage counters and of PEND, over every instruction. -/

namespace Sys2Proof.Machine

theorem satIncUcw_cases (c : Config) (v : Int) : satIncUcw c v = v ∨ satIncUcw c v = v + 1 := by
  unfold satIncUcw
  split
  · exact .inr rfl
  · exact .inl rfl

namespace Effect

variable {s t : State} {i : Instr}

/-- PHASE stays, or moves to DONE by END, into FAULT with a code, or to DECODE by RESET (10_state.md R31). -/
theorem phase_cases (h : Effect s i t) :
    t.phase = s.phase ∨ (i = .endOp ∧ s.phase = .decode ∧ t.phase = .done) ∨
    (s.phase ≠ .fault ∧ t.phase = .fault ∧ t.fcode ≠ .none) ∨ (i = .reset ∧ t.phase = .decode) := by
  cases h with
  | ignored => exact .inl rfl
  | command _ _ hp => exact .inr (.inr (.inl ⟨hp, rfl, nofun⟩))
  | byte _ b hp _ =>
    rcases s.takeByte_cases b with ⟨_, h⟩ | ⟨_, h⟩ | ⟨_, _, h⟩ | ⟨_, _, h⟩ <;> rw [h]
    · exact .inl (s.firstByte_phase b)
    · exact .inl rfl
    · exact .inl rfl
    · exact .inr (.inr (.inl ⟨by simp [hp], rfl, nofun⟩))
  | finish hp =>
    have hnf : s.phase ≠ .fault := by simp [hp]
    rcases s.endStream_cases with ⟨_, h⟩ | ⟨_, h⟩ | ⟨_, _, h⟩ | ⟨_, _, _, _, _, h⟩ | ⟨_, _, _, _, h⟩ <;> rw [h]
    · exact .inr (.inr (.inl ⟨hnf, rfl, nofun⟩))
    · exact .inr (.inr (.inl ⟨hnf, rfl, nofun⟩))
    · exact .inr (.inl ⟨rfl, hp, rfl⟩)
    · exact .inr (.inl ⟨rfl, hp, rfl⟩)
    · exact .inr (.inr (.inl ⟨hnf, rfl, nofun⟩))
  | scan => exact .inl rfl
  | reset => exact .inr (.inr (.inr ⟨rfl, rfl⟩))
  | read => exact .inl rfl

/-- PEND stays, or is set by a completed AddressSet, or cleared by an accumulated DataWrite or by RESET
(10_state.md R36). -/
theorem pend_cases (h : Effect s i t) :
    t.pend = s.pend ∨
    (s.phase = .decode ∧ s.dstate = .waitAddr ∧ t.dstate = .idle ∧ t.pend = true) ∨
    (s.phase = .decode ∧ s.dstate = .waitData ∧ t.dstate = .idle ∧ t.anyw = true ∧ t.pend = false) ∨
    (i = .reset ∧ t.pend = false) := by
  cases h with
  | ignored => exact .inl rfl
  | command => exact .inl rfl
  | byte _ b hp _ =>
    rcases s.takeByte_cases b with ⟨_, h⟩ | ⟨hd, h⟩ | ⟨hd, _, h⟩ | ⟨_, _, h⟩ <;> rw [h]
    · exact .inl (s.firstByte_pend b)
    · exact .inr (.inl ⟨hp, hd, rfl, rfl⟩)
    · exact .inr (.inr (.inl ⟨hp, hd, rfl, rfl, rfl⟩))
    · exact .inl rfl
  | finish =>
    left
    rcases s.endStream_cases with ⟨_, h⟩ | ⟨_, h⟩ | ⟨_, _, h⟩ | ⟨_, _, _, _, _, h⟩ | ⟨_, _, _, _, h⟩ <;> rw [h] <;> rfl
  | scan => exact .inl rfl
  | reset => exact .inr (.inr (.inr ⟨rfl, rfl⟩))
  | read => exact .inl rfl

/-- The table stays, or one entry is written, at CUR by an accumulated DataWrite or at CUR - 1 by the correction, or RESET
clears it (10_state.md R38). -/
theorem table_cases (h : Effect s i t) :
    t.ut = s.ut ∨
    (s.phase = .decode ∧ s.dstate = .waitData ∧ isByte (encode i) = true ∧ t.phase = .decode ∧ t.dstate = .idle ∧
      t.anyw = true ∧ t.ut = s.ut.write s.cur.toNat (satIncUcw s.cfg (s.ut.read s.cur.toNat))) ∨
    (i = .endOp ∧ s.phase = .decode ∧ s.cfg.ck = true ∧ s.anyw = true ∧ s.dstate = .idle ∧ t.phase = .done ∧
      1 ≤ s.cur.toNat ∧ t.ut = s.ut.write (s.cur.toNat - 1) (s.ut.read (s.cur.toNat - 1) - 1)) ∨
    i = .reset := by
  cases h with
  | ignored => exact .inl rfl
  | command => exact .inl rfl
  | byte _ b hp hi =>
    rcases s.takeByte_cases b with ⟨_, h⟩ | ⟨_, h⟩ | ⟨hd, _, h⟩ | ⟨_, _, h⟩ <;> rw [h]
    · exact .inl (s.firstByte_ut b)
    · exact .inl rfl
    · exact .inr (.inl ⟨hp, hd, hi, hp, rfl, rfl, rfl⟩)
    · exact .inl rfl
  | finish hp =>
    rcases s.endStream_cases with ⟨_, h⟩ | ⟨_, h⟩ | ⟨_, _, h⟩ | ⟨hd, hck, hanyw, hlo, _, h⟩ | ⟨_, _, _, _, h⟩ <;> rw [h]
    · exact .inl rfl
    · exact .inl rfl
    · exact .inl rfl
    · exact .inr (.inr (.inl ⟨rfl, hp, hck, hanyw, hd, rfl, hlo, rfl⟩))
    · exact .inl rfl
  | scan => exact .inl rfl
  | reset => exact .inr (.inr (.inr rfl))
  | read => exact .inl rfl

end Effect

/-- Settles O39: it holds. Each clause asks which of the four moves of `Effect.phase_cases` fits its two phases. -/
theorem phaseMovesOnlyAsTheSpecSays : Obligations.PhaseMovesOnlyAsTheSpecSays := by
  intro i s t h
  rcases (effect_of_exec h).phase_cases with hsame | ⟨hi, hs, ht⟩ | ⟨hs, ht, hcode⟩ | ⟨hi, ht⟩
  · rw [hsame]
    exact ⟨fun hne heq => absurd heq hne, fun hne heq => absurd heq hne, fun hne heq => absurd heq hne,
      fun heq hne => absurd heq hne⟩
  · simp [hi, hs, ht]
  · simp [hs, ht, hcode]
  · simp [hi, ht]

/-- Settles O41: it holds. A written entry is the one at CUR, which gains one or saturates, or the one at CUR - 1, which
loses one; every other entry reads as before the write. -/
theorem countersChangeOnlyByWritesAndCorrection : Obligations.CountersChangeOnlyByWritesAndCorrection := by
  intro i s t a hreset h
  rcases (effect_of_exec h).table_cases with
    hut | ⟨hp, hd, hi, htp, htd, hanyw, hut⟩ | ⟨hi, hp, hck, hanyw, hd, htp, hlo, hut⟩ | hi
  · exact .inl (by rw [hut])
  · by_cases ha : s.cur.toNat = a
    · rcases satIncUcw_cases s.cfg (s.ut.read s.cur.toNat) with hv | hv
      · exact .inl (by rw [hut, ← ha, Memory.read_write_same, hv])
      · exact .inr (.inl ⟨by rw [hut, ← ha, Memory.read_write_same, hv], hp, hd, hi, htp, htd, hanyw, ha.symm⟩)
    · exact .inl (by rw [hut, Memory.read_write_other _ _ ha])
  · by_cases ha : s.cur.toNat - 1 = a
    · have hcur : a + 1 = s.cur.toNat := by omega
      exact .inr (.inr ⟨by rw [hut, ha, Memory.read_write_same], hi, hp, hck, hanyw, hd, htp, hcur⟩)
    · exact .inl (by rw [hut, Memory.read_write_other _ _ ha])
  · exact absurd hi hreset

/-- Settles O42: it holds. PEND moves up and down only as `Effect.pend_cases` says. -/
theorem pendingFlagRule : Obligations.PendingFlagRule := by
  intro i s t h
  rcases (effect_of_exec h).pend_cases with hsame | ⟨hp, hd, htd, ht⟩ | ⟨hp, hd, htd, hanyw, ht⟩ | ⟨hi, ht⟩
  · rw [hsame]
    exact ⟨fun h0 h1 => absurd (h0.symm.trans h1) nofun, fun h1 h0 => absurd (h0.symm.trans h1) nofun⟩
  · exact ⟨fun _ _ => ⟨hp, hd, htd⟩, fun _ h0 => absurd (h0.symm.trans ht) nofun⟩
  · exact ⟨fun _ h1 => absurd (ht.symm.trans h1) nofun, fun _ _ => .inr ⟨hp, hd, htd, hanyw⟩⟩
  · exact ⟨fun _ h1 => absurd (ht.symm.trans h1) nofun, fun _ _ => .inl hi⟩

end Sys2Proof.Machine
end

section
/-! O45: every operation keeps the invariants (a) to (h) of 10_state.md R46. -/

namespace Sys2Proof.Machine

/-! ### What the operations give the clauses -/

theorem le_satIncUcw (c : Config) (v : Int) : v ≤ satIncUcw c v := by
  rcases satIncUcw_cases c v with h | h <;> omega

theorem Memory.le_read_write {m : Memory} {bound : Int} (hm : ∀ j < 4096, bound ≤ m.read j) (i : Nat) {v : Int}
    (hv : bound ≤ v) : ∀ j < 4096, bound ≤ (m.write i v).read j := by
  intro j hj
  rw [Memory.read_write]
  split
  · exact hv
  · exact hm j hj

theorem toNat_setWidth_addr_le (a : Addr) : (a.setWidth 13 : Cursor).toNat ≤ 4096 := by
  rw [BitVec.toNat_setWidth]
  omega

theorem toNat_succ_cursor_le {c : Cursor} (h : c.toNat ≤ 4095) : (c + 1#13).toNat ≤ 4096 := by
  rw [BitVec.toNat_add, BitVec.toNat_ofNat]
  omega

/-- Two regions have an index between them, so `n` indices hold at most every second one's worth of regions, and one more
if a region is open before them (00_scope.md R12). -/
theorem length_scanFrom_le (m : Memory) (n : Nat) : ∀ i, (scanFrom m n i none).length ≤ (n + 1) / 2 ∧
    ∀ start, (scanFrom m n i (some start)).length ≤ n / 2 + 1 := by
  induction n with
  | zero => intro i; simp
  | succ n ih =>
    intro i
    obtain ⟨closed, opened⟩ := ih (i + 1)
    constructor
    · rw [scanFrom_outside]
      split
      · have := opened i; omega
      · omega
    · intro start
      rw [scanFrom_inside]
      split
      · have := opened start; omega
      · rw [List.length_cons]; omega

theorem length_scanRegions_le (m : Memory) : (scanRegions m).length ≤ 2048 :=
  (length_scanFrom_le m 4096 0).1

/-- A first byte that makes the block wait has flushed the run. -/
theorem State.firstByte_no_run_while_waiting {s : State} (hd : s.dstate = .idle) (b : Byte)
    (hwait : (s.firstByte b).dstate ≠ .idle) : (s.firstByte b).lcnt = 0 := by
  by_cases hb : b = 0x80#8
  · rw [hb, ← State.leaderByte_eq_firstByte] at hwait
    exact absurd hd hwait
  · exact State.firstByte_lcnt hb s

namespace State.Invariant

variable {s : State} (h : s.Invariant)
include h

theorem issued (rest : List Request) : { s with pending := rest }.Invariant := { h with }

theorem answer (v : ReadValue) : (s.answer v).Invariant := { h with }

/-- Fault entry, whatever leader run was flushed before it. -/
theorem raise {f : FaultCode} (hf : f ≠ .none) (info : Word16) : (s.raise f info).Invariant :=
  { h with
    done_at_boundary := nofun
    no_code_iff_no_fault := by simp [hf]
    counts_from_zero_in_decode := nofun }

/-- The flush leaves no run and touches no other element that a clause speaks of. -/
theorem flushLeader : s.flushLeader.Invariant := by
  rw [State.flushLeader_eq]
  exact { h with
    no_run_while_waiting := fun _ => rfl
    done_at_boundary := fun hp => ⟨(h.done_at_boundary hp).1, rfl⟩ }

theorem firstByte (hp : s.phase = .decode) (hd : s.dstate = .idle) (b : Byte) : (s.firstByte b).Invariant where
  cursor_in_range := by simpa using h.cursor_in_range
  no_run_while_waiting := State.firstByte_no_run_while_waiting hd b
  done_at_boundary := by simp [hp]
  no_code_iff_no_fault := by simpa using h.no_code_iff_no_fault
  unwritten_is_zero := by simpa using h.unwritten_is_zero
  counts_from_minus_one := by simpa using h.counts_from_minus_one
  counts_from_zero_in_decode := by simpa using h.counts_from_zero_in_decode
  overlaps_at_most_2048 := by simpa using h.overlaps_at_most_2048

/-- An address has 12 bits, so the cursor it sets lies inside the table. -/
theorem addrLow (hp : s.phase = .decode) (l : Half) : (s.addrLow l).Invariant :=
  { h with
    cursor_in_range := toNat_setWidth_addr_le _
    no_run_while_waiting := fun hne => absurd rfl hne
    done_at_boundary := fun hdone => absurd (hp.symm.trans hdone) nofun }

/-- An accumulated DataWrite raises a count and moves the cursor to at most 4096; at 4096 it faults instead. -/
theorem dataLow (hp : s.phase = .decode) (l : Half) : (s.dataLow l).Invariant := by
  rcases Nat.lt_or_ge 4095 s.cur.toNat with hcur | hcur
  · rw [State.dataLow_range hcur]; exact h.raise (by decide) _
  · have hi : s.cur.toNat < 4096 := by omega
    have hzero := h.counts_from_zero_in_decode hp
    rw [State.dataLow_counts hcur]
    exact { h with
      cursor_in_range := toNat_succ_cursor_le hcur
      no_run_while_waiting := fun hne => absurd rfl hne
      done_at_boundary := fun hdone => absurd (hp.symm.trans hdone) nofun
      unwritten_is_zero := nofun
      counts_from_minus_one := Memory.le_read_write h.counts_from_minus_one _
        ((h.counts_from_minus_one _ hi).trans (le_satIncUcw _ _))
      counts_from_zero_in_decode := fun _ =>
        Memory.le_read_write hzero _ ((hzero _ hi).trans (le_satIncUcw _ _)) }

theorem takeByte (hp : s.phase = .decode) (b : Byte) : (s.takeByte b).Invariant := by
  cases hd : s.dstate with
  | idle => rw [State.takeByte_idle hd]; exact h.firstByte hp hd b
  | waitAddr => rw [State.takeByte_waitAddr hd]; exact h.addrLow hp _
  | waitData => rw [State.takeByte_waitData hd]; exact h.dataLow hp _

/-- The correction is the one decrement, and it meets a count from 0 up, since the phase is still DECODE. -/
theorem endStream (hp : s.phase = .decode) : s.endStream.Invariant := by
  have hcode : s.fcode = .none := h.no_code_iff_no_fault.2 (by simp [hp])
  rcases s.endStream_cases with ⟨_, he⟩ | ⟨_, he⟩ | ⟨hd, _, he⟩ | ⟨hd, _, hanyw, hlo, hhi, he⟩ | ⟨_, _, _, _, he⟩ <;>
    rw [he]
  · exact h.raise (by decide) _
  · exact h.raise (by decide) _
  · exact { h with
      no_run_while_waiting := fun _ => rfl
      done_at_boundary := fun _ => ⟨hd, rfl⟩
      no_code_iff_no_fault := by simp [hcode]
      counts_from_zero_in_decode := nofun }
  · have hi : s.cur.toNat - 1 < 4096 := by omega
    have hv : -1 ≤ s.ut.read (s.cur.toNat - 1) - 1 := by have := h.counts_from_zero_in_decode hp _ hi; omega
    exact { h with
      no_run_while_waiting := fun _ => rfl
      done_at_boundary := fun _ => ⟨hd, rfl⟩
      no_code_iff_no_fault := by simp [hcode]
      unwritten_is_zero := fun h0 => absurd (hanyw.symm.trans h0) nofun
      counts_from_minus_one := Memory.le_read_write h.counts_from_minus_one _ hv
      counts_from_zero_in_decode := nofun }
  · have flushed := h.flushLeader
    rw [State.flushLeader_eq] at flushed
    exact flushed.raise (f := .range) (by decide) _

theorem scanTable : s.scanTable.Invariant :=
  { h with
    overlaps_at_most_2048 := by
      have := length_scanRegions_le s.ut
      rw [State.scanTable_ovl, BitVec.toNat_ofNat]
      omega }

omit h in
theorem resetBlock (s : State) : s.resetBlock.Invariant where
  cursor_in_range := Nat.zero_le _
  no_run_while_waiting := fun _ => rfl
  done_at_boundary := nofun
  no_code_iff_no_fault := by simp
  unwritten_is_zero := fun _ _ _ => rfl
  counts_from_minus_one := fun _ _ => by simp
  counts_from_zero_in_decode := fun _ _ _ => by simp
  overlaps_at_most_2048 := Nat.zero_le _

theorem carryOut (r : Request) : (s.carryOut r).Invariant :=
  State.carryOut_induct r
    (ignored := h)
    (command := h.raise (by decide))
    (byte := fun b hp => h.takeByte hp b)
    (finish := h.endStream)
    (scan := fun _ => h.scanTable)
    (reset := resetBlock s)
    (read := h.answer)

end State.Invariant

/-- Settles O45: it holds. Nothing asked changes nothing, and every request keeps the invariants by
`State.Invariant.carryOut`. -/
theorem stepKeepsTheInvariants : Obligations.StepKeepsTheInvariants := by
  intro s t h hstep
  cases hp : s.pending with
  | nil =>
    rw [step_of_nothing_pending hp] at hstep
    exact Host.Outcome.next.inj hstep ▸ h
  | cons r rest =>
    rw [step_of_pending hp] at hstep
    exact Host.Outcome.next.inj hstep ▸ (h.issued rest).carryOut r

end Sys2Proof.Machine
end

section
/-! O32, O44, O47: the reset values meet the spec and the invariants, and so does every state reached from them. -/

namespace Sys2Proof.Machine

theorem State.resetBlock_atReset (s : State) : s.resetBlock.AtReset := by constructor <;> rfl

/-- A state at its reset values is what RESET makes of it. -/
theorem State.AtReset.resetBlock_eq {s : State} (h : s.AtReset) : s.resetBlock = s := by
  cases s
  obtain ⟨rfl, rfl, rfl, rfl, rfl, rfl, rfl, rfl, rfl, rfl, rfl⟩ := h
  rfl

/-- Settles O32: it holds, since State.reset is itself a state after RESET. -/
theorem resetStateHasTheSpecsValues : Obligations.ResetStateHasTheSpecsValues :=
  ⟨State.resetBlock_atReset State.reset, Memory.read_nil⟩

/-- Settles O44: it holds, since RESET establishes both invariants and changes nothing in such a state. -/
theorem resetValuesMeetTheInvariants : Obligations.ResetValuesMeetTheInvariants := by
  intro s h
  rw [← h.resetBlock_eq]
  exact ⟨State.Invariant.resetBlock s, State.Sized.resetBlock s⟩

/-! ### Runs, one step at a time -/

theorem run_succ_of_next (M : Host.Core) {s t : M.State} (h : M.step s = .next t) (k : Nat) :
    M.run (k + 1) s = M.run k t := by
  rw [Host.Core.run, h]

/-- `run_succ_of_next` with the block's own step, State and Outcome in its statement. -/
theorem run_succ {s t : State} (h : step s = .next t) (k : Nat) :
    Host.Core.run core (k + 1) s = Host.Core.run core k t :=
  run_succ_of_next core h k

theorem step_answers_next (s : State) : ∃ t, step s = .next t := by
  cases hp : s.pending with
  | nil => exact ⟨s, step_of_nothing_pending hp⟩
  | cons r rest => exact ⟨_, step_of_pending hp⟩

/-- What every step keeps, every run keeps. -/
theorem run_keeps {P : State → Prop} (hstep : ∀ s t, P s → step s = .next t → P t) (k : Nat) {s t : State} (hs : P s)
    (hrun : Host.Core.run core k s = Host.Outcome.next t) : P t := by
  induction k generalizing s with
  | zero => exact Host.Outcome.next.inj hrun ▸ hs
  | succ k ih =>
    obtain ⟨u, hu⟩ := step_answers_next s
    exact ih (hstep s u hs hu) ((run_succ hu k).symm.trans hrun)

/-- Settles O47: it holds. RESET establishes the invariants in any state, and every step keeps them (O45). -/
theorem invariantsHoldInEveryReachedState : Obligations.InvariantsHoldInEveryReachedState := by
  intro k s u t hreset hrun
  obtain rfl := Host.Outcome.next.inj hreset
  exact run_keeps stepKeepsTheInvariants k (State.Invariant.resetBlock s) hrun

end Sys2Proof.Machine
end

section
/-! O49: a leader run over any number of bytes, and the byte that ends it. -/

namespace Sys2Proof.Machine

/-! ### The decode map in numbers (30_encoding.md R98) -/

theorem byteTag_toNat (b : Byte) : (byteTag b).toNat = b.toNat / 64 := by
  simp only [byteTag, BitVec.extractLsb'_toNat, Nat.shiftRight_eq_div_pow]
  omega

theorem byteField_eq_ofNat {b : Byte} (h : 0xC0 ≤ b.toNat) : byteField b = BitVec.ofNat 3 ((b.toNat - 0xC0) / 8) := by
  apply BitVec.eq_of_toNat_eq
  simp only [byteField, BitVec.extractLsb'_toNat, Nat.shiftRight_eq_div_pow, BitVec.toNat_ofNat]
  omega

/-- The events of a byte at a boundary that is not the leader's: the run's report, and then a FIELD or INVALID event, or
none from the first byte of a longer record (40_record_decoder.md R122 to R126). -/
theorem State.firstByte_events {b : Byte} (hb : b ≠ 0x80#8) (s : State) :
    (s.firstByte b).events = s.events ++ leaderReport s.lcnt ++
      (if 0xC0 ≤ b.toNat then [.field (BitVec.ofNat 3 ((b.toNat - 0xC0) / 8))]
        else if 0x80 ≤ b.toNat then [.invalid] else []) := by
  have htag := byteTag_toNat b
  rcases s.firstByte_cases b with ⟨h80, _⟩ | ⟨_, ht, h⟩ | ⟨_, ht, h⟩ | ⟨_, ht, h⟩ | ⟨_, ht, h⟩
  · exact absurd h80 hb
  all_goals rw [ht, BitVec.toNat_ofNat] at htag
  · have hlo : 0xC0 ≤ b.toNat := by omega
    rw [h, State.fieldByte_eq, if_pos hlo, byteField_eq_ofNat hlo]
  · have hhi : ¬0xC0 ≤ b.toNat := by omega
    have hlo : 0x80 ≤ b.toNat := by omega
    rw [h, State.invalidByte_eq, if_neg hhi, if_pos hlo]
  · have hhi : ¬0xC0 ≤ b.toNat := by omega
    have hlo : ¬0x80 ≤ b.toNat := by omega
    rw [h, State.addrHigh_eq, if_neg hhi, if_neg hlo, List.append_nil]
  · have hhi : ¬0xC0 ≤ b.toNat := by omega
    have hlo : ¬0x80 ≤ b.toNat := by omega
    rw [h, State.dataHigh_eq, if_neg hhi, if_neg hlo, List.append_nil]

/-! ### The run -/

theorem State.carryOut_byteRequest {s : State} (hp : s.phase = .decode) (hd : s.dstate = .idle) (b : Byte) :
    s.carryOut (byteRequest b) = s.firstByte b := by
  rw [byteRequest, State.carryOut, if_pos rfl, State.gate_legal hp (by decide), State.takeByte_idle hd]

/-- A byte asked at a record boundary in DECODE is a first byte. -/
theorem step_byteRequest {s : State} {b : Byte} {rest : List Request} (hp : s.phase = .decode) (hd : s.dstate = .idle)
    (h : s.pending = byteRequest b :: rest) : step s = .next ({ s with pending := rest }.firstByte b) := by
  rw [step_of_pending h]
  exact congrArg _ (State.carryOut_byteRequest (s := { s with pending := rest }) hp hd b)

/-- `s` with a leader run of `n` bytes behind it and the requests `rest` before it. -/
def State.withRun (s : State) (n : Nat) (rest : List Request) : State := { s with lcnt := n, pending := rest }

theorem step_leaderByte {s : State} {rest : List Request} (hp : s.phase = .decode) (hd : s.dstate = .idle)
    (h : s.pending = byteRequest 0x80#8 :: rest) : step s = .next (s.withRun (satIncLcw s.cfg s.lcnt) rest) :=
  step_byteRequest hp hd h

theorem satIncLcw_eq_min {c : Config} {v : Nat} (h : v ≤ lcntMax c) : satIncLcw c v = min (v + 1) (lcntMax c) := by
  unfold satIncLcw
  split <;> omega

/-- Over `n` leader bytes the run grows by `n`, saturating, and nothing else happens (40_record_decoder.md R121). -/
theorem run_leaderBytes (n : Nat) {s : State} {rest : List Request} (hp : s.phase = .decode) (hd : s.dstate = .idle)
    (hl : s.lcnt ≤ lcntMax s.cfg) (h : s.pending = (leaderBytes n).map byteRequest ++ rest) (k : Nat) :
    Host.Core.run core (k + n) s = Host.Core.run core k (s.withRun (min (s.lcnt + n) (lcntMax s.cfg)) rest) := by
  induction n generalizing s with
  | zero =>
    have hs : s = s.withRun (min (s.lcnt + 0) (lcntMax s.cfg)) rest := by
      rw [Nat.add_zero, Nat.min_eq_left hl, ← show s.pending = rest from h]
      rfl
    exact congrArg (Host.Core.run core k) hs
  | succ n ih =>
    have hcount : min (satIncLcw s.cfg s.lcnt + n) (lcntMax s.cfg) = min (s.lcnt + (n + 1)) (lcntMax s.cfg) := by
      rw [satIncLcw_eq_min hl]
      omega
    rw [← hcount]
    exact (run_succ (step_leaderByte hp hd h) (k + n)).trans
      (ih (s := s.withRun (satIncLcw s.cfg s.lcnt) _) hp hd (satIncLcw_le hl) rfl)

/-- Settles O49: it holds. The bytes 0x80 make a run of their number, and the byte after them flushes it. -/
theorem leaderRunIsReportedOnce : Obligations.LeaderRunIsReportedOnce := by
  intro n b rest s hwf hn hb hp hd hl h
  have hmax : 1 ≤ lcntMax s.cfg := by
    have : 2 ^ 1 ≤ 2 ^ s.cfg.lcw := Nat.pow_le_pow_right (by decide) hwf.1
    unfold lcntMax
    omega
  have hbytes := run_leaderBytes n hp hd (by omega) h 1
  rw [hl, Nat.zero_add, Nat.add_comm] at hbytes
  have hlast : step (s.withRun (min n (lcntMax s.cfg)) (byteRequest b :: rest)) =
      .next ((s.withRun (min n (lcntMax s.cfg)) rest).firstByte b) := step_byteRequest hp hd rfl
  refine ⟨_, hbytes.trans (run_succ hlast 0), State.firstByte_pending _ b, State.firstByte_lcnt hb _, State.firstByte_ut _ b,
    State.firstByte_cur _ b, State.firstByte_pend _ b, ?_⟩
  have hpos : 0 < min n (lcntMax s.cfg) := by omega
  rw [State.firstByte_events hb, State.withRun, leaderReport, if_pos hpos, List.append_assoc]
  rfl

end Sys2Proof.Machine
end

section
/-! O1 to O5: the decoder and the encoder undo one another (30_encoding.md R90 to R101). -/

namespace Sys2Proof.Machine

/-! ### The fields of a byte and of a 12-bit value -/

theorem bitVec2_cases (t : BitVec 2) : t = 0b11#2 ∨ t = 0b10#2 ∨ t = 0b01#2 ∨ t = 0b00#2 := by
  revert t; decide

theorem tagged_byteTag_byteHalf (b : Byte) : tagged (byteTag b) (byteHalf b) = b :=
  BitVec.extractLsb'_append_extractLsb'

theorem join_highHalf_lowHalf (v : Addr) : join (highHalf v) (lowHalf v) = v :=
  BitVec.extractLsb'_append_extractLsb'

theorem byteTag_fieldBits (f x : BitVec 3) : byteTag (0b11#2 ++ f ++ x) = 0b11#2 := by
  revert f x; decide

theorem byteField_fieldBits (f x : BitVec 3) : byteField (0b11#2 ++ f ++ x) = f := by
  revert f x; decide

theorem byteRest_fieldBits (f x : BitVec 3) : byteRest (0b11#2 ++ f ++ x) = x := by
  revert f x; decide

/-- A byte with the tag of FIELD is that tag, its field and its ignored bits (30_encoding.md R93). -/
theorem fieldBits_of_tag {b : Byte} (ht : byteTag b = 0b11#2) : 0b11#2 ++ byteField b ++ byteRest b = b := by
  revert b; decide

theorem tagged_ne_leader_of_half {n : Half} (hn : n ≠ 0#6) (t : BitVec 2) : tagged t n ≠ 0x80#8 := by
  intro heq
  have hhalf := byteHalf_tagged t n
  rw [heq] at hhalf
  exact hn hhalf.symm

theorem ne_leader_of_tag {b : Byte} (ht : byteTag b ≠ 0b10#2) : b ≠ 0x80#8 := by
  rw [← tagged_byteTag_byteHalf b]
  exact tagged_ne_leader ht _

/-- The leader byte is the one byte of the Invalid tag without low bits (30_encoding.md R92). -/
theorem half_ne_zero_of_invalid {b : Byte} (hb : b ≠ 0x80#8) (ht : byteTag b = 0b10#2) : byteHalf b ≠ 0#6 := by
  intro hhalf
  have hbyte := tagged_byteTag_byteHalf b
  rw [ht, hhalf] at hbyte
  exact hb hbyte.symm

/-! ### The class of a first byte, by its tag (30_encoding.md R92) -/

theorem decodeFirst_of_field {b : Byte} (ht : byteTag b = 0b11#2) :
    decodeFirst b = .field (byteField b) (byteRest b) := by
  have hb : b ≠ 0x80#8 := ne_leader_of_tag (by rw [ht]; decide)
  rw [decodeFirst, if_neg hb, if_pos ht]

theorem decodeFirst_of_invalid {b : Byte} (hb : b ≠ 0x80#8) (ht : byteTag b = 0b10#2) :
    decodeFirst b = .invalid (byteHalf b) := by
  simp [decodeFirst, hb, ht]

theorem decodeFirst_of_addr {b : Byte} (ht : byteTag b = 0b01#2) : decodeFirst b = .addr (byteHalf b) := by
  have hb : b ≠ 0x80#8 := ne_leader_of_tag (by rw [ht]; decide)
  simp [decodeFirst, hb, ht]

theorem decodeFirst_of_data {b : Byte} (ht : byteTag b = 0b00#2) : decodeFirst b = .data (byteHalf b) := by
  have hb : b ≠ 0x80#8 := ne_leader_of_tag (by rw [ht]; decide)
  simp [decodeFirst, hb, ht]

theorem decode_byteRequest (p : Phase) (d : DState) (b : Byte) : decode p d (byteRequest b) = decodeByte p d b := rfl

/-! ### O1: decode after encode -/

/-- The conditions of the record instructions in `Instr.readIn`, as equations. -/
theorem phase_dstate_of_readIn {p q : Phase} {d e : DState} (h : (decide (p = q) && decide (d = e)) = true) :
    p = q ∧ d = e := by
  simpa using h

/-- Settles O1: it holds. Each record instruction's byte has the tag that its class is decided by, and the byte's fields
are the operands again. -/
theorem decodeInvertsEncode : Obligations.DecodeInvertsEncode := by
  intro i p d hwf hread
  cases i with
  | leader =>
    obtain ⟨rfl, rfl⟩ := phase_dstate_of_readIn hread
    rfl
  | field f x =>
    obtain ⟨rfl, rfl⟩ := phase_dstate_of_readIn hread
    exact (decodeFirst_of_field (byteTag_fieldBits f x)).trans (by rw [byteField_fieldBits, byteRest_fieldBits])
  | invalid n =>
    obtain ⟨rfl, rfl⟩ := phase_dstate_of_readIn hread
    have hb : tagged 0b10#2 n ≠ 0x80#8 := tagged_ne_leader_of_half (of_decide_eq_true hwf) _
    exact (decodeFirst_of_invalid hb (byteTag_tagged _ n)).trans (by rw [byteHalf_tagged])
  | addr h =>
    obtain ⟨rfl, rfl⟩ := phase_dstate_of_readIn hread
    exact (decodeFirst_of_addr (byteTag_tagged _ h)).trans (by rw [byteHalf_tagged])
  | addrB2 t l =>
    obtain ⟨rfl, rfl⟩ := phase_dstate_of_readIn hread
    rw [encode, decode_byteRequest, decodeByte, byteTag_tagged, byteHalf_tagged]
  | data h =>
    obtain ⟨rfl, rfl⟩ := phase_dstate_of_readIn hread
    exact (decodeFirst_of_data (byteTag_tagged _ h)).trans (by rw [byteHalf_tagged])
  | dataB2 t l =>
    obtain ⟨rfl, rfl⟩ := phase_dstate_of_readIn hread
    rw [encode, decode_byteRequest, decodeByte, byteTag_tagged, byteHalf_tagged]
  | byte b =>
    cases p with
    | decode => simp [Instr.readIn] at hread
    | done => rfl
    | fault => rfl
  | endOp | scan | reservedOp | reset | count _ | cell _ | pair _ | reg _ => rfl

/-! ### O2: encode after decode -/

theorem decodeFirst_written_back (b : Byte) :
    (decodeFirst b).wellFormed = true ∧ (decodeFirst b).readIn .decode .idle = true ∧
      encode (decodeFirst b) = byteRequest b := by
  have hb := tagged_byteTag_byteHalf b
  by_cases h80 : b = 0x80#8
  · subst h80; exact ⟨rfl, rfl, rfl⟩
  rcases bitVec2_cases (byteTag b) with ht | ht | ht | ht
  · rw [decodeFirst_of_field ht]
    exact ⟨rfl, rfl, congrArg byteRequest (fieldBits_of_tag ht)⟩
  · rw [decodeFirst_of_invalid h80 ht]
    exact ⟨decide_eq_true (half_ne_zero_of_invalid h80 ht), rfl, congrArg byteRequest (ht ▸ hb)⟩
  · rw [decodeFirst_of_addr ht]
    exact ⟨rfl, rfl, congrArg byteRequest (ht ▸ hb)⟩
  · rw [decodeFirst_of_data ht]
    exact ⟨rfl, rfl, congrArg byteRequest (ht ▸ hb)⟩

theorem decodeByte_written_back (p : Phase) (d : DState) (b : Byte) :
    (decodeByte p d b).wellFormed = true ∧ (decodeByte p d b).readIn p d = true ∧
      encode (decodeByte p d b) = byteRequest b := by
  cases p with
  | decode =>
    cases d with
    | idle => exact decodeFirst_written_back b
    | waitAddr | waitData => exact ⟨rfl, rfl, congrArg byteRequest (tagged_byteTag_byteHalf b)⟩
  | done | fault => exact ⟨rfl, rfl, rfl⟩

/-- Settles O2: it holds. A byte is its tag and its fields again, and every other request is one instruction's alone. -/
theorem decodingIsTotalAndWrittenBack : Obligations.DecodingIsTotalAndWrittenBack := by
  intro p d r
  cases r with
  | op code b =>
    rcases bitVec2_cases code with rfl | rfl | rfl | rfl
    · exact ⟨rfl, rfl, rfl⟩
    · exact ⟨rfl, rfl, rfl⟩
    · exact ⟨rfl, rfl, rfl⟩
    · exact decodeByte_written_back p d b
  | rst | count _ | cell _ | pair _ | reg _ => exact ⟨rfl, rfl, rfl⟩

/-! ### O3 and O4: the decode map in numbers, and words written out (30_encoding.md R98) -/

theorem byteTag_eq_ofNat {b : Byte} {n : Nat} (h : b.toNat / 64 = n) : byteTag b = BitVec.ofNat 2 n := by
  rw [← h, ← byteTag_toNat, BitVec.ofNat_toNat, BitVec.setWidth_eq]

theorem byteHalf_eq_ofNat {b : Byte} {n : Nat} (h : b.toNat % 64 = n % 64) : byteHalf b = BitVec.ofNat 6 n := by
  apply BitVec.eq_of_toNat_eq
  simpa [byteHalf] using h

theorem byteRest_eq_ofNat (b : Byte) : byteRest b = BitVec.ofNat 3 (b.toNat % 8) := by
  apply BitVec.eq_of_toNat_eq
  simp [byteRest]

/-- Settles O3: it holds. Each range of the map is one value of the tag, and 0x80 is the leader's own. -/
theorem firstByteDecodeMap : Obligations.FirstByteDecodeMap := by
  intro b
  refine ⟨fun h => ?_, fun hlo hhi => ?_, fun h => ?_, fun hlo hhi => ?_, fun h => ?_⟩
  · rw [decodeFirst_of_data (byteTag_eq_ofNat (by omega)), byteHalf_eq_ofNat rfl]
  · have hhalf : b.toNat % 64 = (b.toNat - 0x40) % 64 := by omega
    rw [decodeFirst_of_addr (byteTag_eq_ofNat (by omega)), byteHalf_eq_ofNat hhalf]
  · obtain rfl : b = 0x80#8 := BitVec.eq_of_toNat_eq h
    rfl
  · have hb : b ≠ 0x80#8 := by rintro rfl; exact absurd hlo (by decide)
    have hhalf : b.toNat % 64 = (b.toNat - 0x80) % 64 := by omega
    rw [decodeFirst_of_invalid hb (byteTag_eq_ofNat (by omega)), byteHalf_eq_ofNat hhalf]
  · have hb := b.isLt
    rw [decodeFirst_of_field (byteTag_eq_ofNat (by omega)), byteField_eq_ofNat h, byteRest_eq_ofNat]

/-- Settles O4: it holds, by O1, since each word is the encoding of the instruction it stands for. -/
theorem wordsDecodeAsWritten : Obligations.WordsDecodeAsWritten :=
  ⟨decodeInvertsEncode .leader .decode .idle rfl rfl,
    decodeInvertsEncode (.field 1#3 0#3) .decode .idle rfl rfl,
    decodeInvertsEncode (.invalid 37#6) .decode .idle rfl rfl,
    decodeInvertsEncode (.addr 21#6) .decode .idle rfl rfl,
    decodeInvertsEncode (.addrB2 3#2 5#6) .decode .waitAddr rfl rfl,
    decodeInvertsEncode (.data 10#6) .decode .idle rfl rfl,
    decodeInvertsEncode (.dataB2 2#2 0#6) .decode .waitData rfl rfl,
    decodeInvertsEncode (.byte 0x12#8) .done .idle rfl rfl,
    decodeInvertsEncode .endOp .decode .idle rfl rfl,
    decodeInvertsEncode .scan .done .idle rfl rfl,
    decodeInvertsEncode .reservedOp .done .idle rfl rfl⟩

/-! ### O5: the record decoder after the record encoder -/

/-- Settles O5: it holds. The first byte's tag tells the record, and the two halves of a value join to it again. -/
theorem recordEncodingRoundTrip : Obligations.RecordEncodingRoundTrip := by
  intro r rest hwf
  cases r with
  | leader => rfl
  | fieldSet f =>
    have ht := byteTag_fieldBits f 0#3
    have hb : 0b11#2 ++ f ++ 0#3 ≠ 0x80#8 := ne_leader_of_tag (by rw [ht]; decide)
    rw [encodeRecord, List.singleton_append, decodeRecord, if_neg hb, if_pos ht, byteField_fieldBits]
  | invalid n =>
    have hb : tagged 0b10#2 n ≠ 0x80#8 := tagged_ne_leader_of_half (of_decide_eq_true hwf) _
    simp [encodeRecord, decodeRecord, hb, byteTag_tagged, byteHalf_tagged]
  | addressSet v | dataWrite v =>
    simp [encodeRecord, decodeRecord, decodePair, tagged_ne_leader, byteTag_tagged, byteHalf_tagged,
      join_highHalf_lowHalf]

end Sys2Proof.Machine
end

section
/-! O16, O20, O38: the continuation byte, the reserved op code, and the layout of an event
(30_encoding.md R95, R100, R102). -/

namespace Sys2Proof.Machine

/-- BYTE in DECODE is taken by the sub-state (40_record_decoder.md R120). -/
theorem exec_byte_of_decode {s : State} (hp : s.phase = .decode) (b : Byte) :
    exec (.byte b) s = .next (s.takeByte b) :=
  congrArg Host.Outcome.next (State.gate_legal hp (by decide) _ _)

theorem exec_addrB2_of_waitAddr {s : State} (hp : s.phase = .decode) (hd : s.dstate = .waitAddr) (t : BitVec 2)
    (l : Half) : exec (.addrB2 t l) s = .next (s.addrLow l) :=
  congrArg Host.Outcome.next (State.present_own hp hd _ _)

theorem exec_dataB2_of_waitData {s : State} (hp : s.phase = .decode) (hd : s.dstate = .waitData) (t : BitVec 2)
    (l : Half) : exec (.dataB2 t l) s = .next (s.dataLow l) :=
  congrArg Host.Outcome.next (State.present_own hp hd _ _)

/-- Settles O16: it holds. In a wait state a byte is taken by its half alone, and so is the continuation. -/
theorem continuationByteIsNeverClassified : Obligations.ContinuationByteIsNeverClassified := by
  intro b t s hp
  have hhalf : byteHalf b = BitVec.ofNat 6 (b.toNat % 64) := byteHalf_eq_ofNat (Nat.mod_mod _ _).symm
  refine ⟨fun hd => ?_, fun hd => ?_⟩
  · rw [exec_byte_of_decode hp, State.takeByte_waitAddr hd, exec_addrB2_of_waitAddr hp hd, hhalf]
  · rw [exec_byte_of_decode hp, State.takeByte_waitData hd, exec_dataB2_of_waitData hp hd, hhalf]

/-- The reserved op code has no legal phase (60_exceptions.md R203). -/
theorem exec_reservedOp_of_ne_fault {s : State} (hf : s.phase ≠ .fault) :
    exec .reservedOp s = .next (s.raise .cmd (commandInfo 0b11#2 s.phase)) :=
  congrArg Host.Outcome.next (State.gate_illegal (legal := none) hf nofun _ _)

/-- Settles O20: it holds, phase by phase. -/
theorem reservedOpRaisesCommandFault : Obligations.ReservedOpRaisesCommandFault := by
  intro s
  cases hp : s.phase with
  | fault => exact congrArg Host.Outcome.next (State.gate_fault hp _ _ _)
  | decode => rw [exec_reservedOp_of_ne_fault (by rw [hp]; decide), hp]; rfl
  | done => rw [exec_reservedOp_of_ne_fault (by rw [hp]; decide), hp]; rfl

/-- What an event carries as ev_p0 fits the wider of a count and an address (30_encoding.md R102). -/
theorem eventP0_lt {lcw : Nat} {e : Event} (h : ∀ n, e = .leader n → n < 2 ^ lcw) : eventP0 e < 2 ^ max lcw 12 := by
  have haddr : 2 ^ 12 ≤ 2 ^ max lcw 12 := Nat.pow_le_pow_right (by decide) (Nat.le_max_right _ _)
  cases e with
  | leader n => exact (h n rfl).trans_le (Nat.pow_le_pow_right (by decide) (Nat.le_max_left _ _))
  | field f => exact (f.isLt.trans (by decide)).trans_le haddr
  | addr a => exact a.isLt.trans_le haddr
  | data a _ _ => exact a.isLt.trans_le haddr
  | invalid => exact Nat.two_pow_pos _
  | region a _ => exact a.isLt.trans_le haddr

/-- Settles O38: it holds, the layout by the table's own rows and the width by `eventP0_lt`. -/
theorem eventPortLayout : Obligations.EventPortLayout :=
  ⟨fun _ => rfl, fun _ => rfl, fun _ => rfl, fun _ _ _ => rfl, rfl, fun _ _ => rfl, fun _ _ => eventP0_lt⟩

end Sys2Proof.Machine
end

section
/-! O50: the records of WORDS, two bytes each, and the DataWrites after the AddressSet (30_encoding.md R104). -/

namespace Sys2Proof.Machine

/-! ### A record of two bytes -/

theorem State.carryOut_byteRequest_of_decode {s : State} (hp : s.phase = .decode) (b : Byte) :
    s.carryOut (byteRequest b) = s.takeByte b := by
  rw [byteRequest, State.carryOut, if_pos rfl, State.gate_legal hp (by decide)]

/-- A byte asked in DECODE is taken by the sub-state. -/
theorem step_takeByte {s : State} {b : Byte} {rest : List Request} (hp : s.phase = .decode)
    (h : s.pending = byteRequest b :: rest) : step s = .next ({ s with pending := rest }.takeByte b) := by
  rw [step_of_pending h]
  exact congrArg _ (State.carryOut_byteRequest_of_decode (s := { s with pending := rest }) hp b)

/-- No byte reads the requests after it. -/
theorem State.firstByte_issued (s : State) (b : Byte) (rest : List Request) :
    { s with pending := rest }.firstByte b = { s.firstByte b with pending := rest } := by
  unfold State.firstByte
  split_ifs
  · rfl
  · simp only [State.fieldByte_eq]
  · simp only [State.invalidByte_eq]
  · simp only [State.addrHigh_eq]
  · simp only [State.dataHigh_eq]

/-- From a record boundary two bytes are a first byte and whatever the sub-state after it takes the second for. -/
theorem run_two_bytes {s t : State} {b1 b2 : Byte} {rest : List Request} (hp : s.phase = .decode)
    (hd : s.dstate = .idle) (h : s.pending = byteRequest b1 :: byteRequest b2 :: rest)
    (ht : ({ s with pending := rest }.firstByte b1).takeByte b2 = t) (k : Nat) :
    Host.Core.run core (k + 2) s = Host.Core.run core k t := by
  have h1 := step_byteRequest hp hd h
  have hp1 : ({ s with pending := byteRequest b2 :: rest }.firstByte b1).phase = .decode :=
    (State.firstByte_phase _ b1).trans hp
  have h2 := step_takeByte hp1 (State.firstByte_pending _ b1)
  rw [← State.firstByte_issued, ht] at h2
  exact (run_succ h1 (k + 1)).trans (run_succ h2 k)

/-- The state after the record AddressSet `a` at a boundary of `s`, with the requests `rest` before it. -/
def State.afterAddressSet (s : State) (a : Addr) (rest : List Request) : State :=
  { s with
    pending := rest, hold := highHalf a, dstate := .idle, lcnt := 0, cur := a.setWidth 13, pend := true
    events := s.events ++ leaderReport s.lcnt ++ [.addr a] }

/-- The state after the record DataWrite `v` at a boundary of `s` inside the table, with the requests `rest` before it. -/
def State.afterDataWrite (s : State) (v : Addr) (rest : List Request) : State :=
  { s with
    pending := rest, hold := highHalf v, dstate := .idle, lcnt := 0, cur := s.cur + 1#13, pend := false, anyw := true
    ut := s.ut.write s.cur.toNat (satIncUcw s.cfg (s.ut.read s.cur.toNat))
    events := s.events ++ leaderReport s.lcnt ++ [.data (cursorAddr s.cur) v s.pend] }

/-- AddressSet, whole (40_record_decoder.md R125, R127). -/
theorem run_addressSet {s : State} {a : Addr} {rest : List Request} (hp : s.phase = .decode) (hd : s.dstate = .idle)
    (h : s.pending = (encodeRecord (.addressSet a)).map byteRequest ++ rest) (k : Nat) :
    Host.Core.run core (k + 2) s = Host.Core.run core k (s.afterAddressSet a rest) := by
  refine run_two_bytes hp hd h ?_ k
  rw [← State.addrHigh_eq_firstByte, State.addrHigh_eq, State.takeByte_waitAddr rfl, State.addrLow_eq, byteHalf_tagged,
    join_highHalf_lowHalf]
  rfl

/-- DataWrite, whole, where the cursor is inside the table (40_record_decoder.md R126, R128). -/
theorem run_dataWrite {s : State} {v : Addr} {rest : List Request} (hp : s.phase = .decode) (hd : s.dstate = .idle)
    (hcur : s.cur.toNat ≤ 4095) (h : s.pending = (encodeRecord (.dataWrite v)).map byteRequest ++ rest) (k : Nat) :
    Host.Core.run core (k + 2) s = Host.Core.run core k (s.afterDataWrite v rest) := by
  refine run_two_bytes hp hd h ?_ k
  rw [← State.dataHigh_eq_firstByte, State.dataHigh_eq, State.takeByte_waitData rfl, State.dataLow_counts,
    byteHalf_tagged, join_highHalf_lowHalf]
  · rfl
  · exact hcur

/-! ### The DataWrites of WORDS -/

/-- What the DataWrites `vs` make of the state `s`, which the address `a` and `n` words came before, when all of them land
inside the table. `run_dataWrites` ties it to the model. -/
structure WordsLanded (a n : Nat) (vs : List Addr) (s t : State) : Prop where
  phase : t.phase = .decode
  dstate : t.dstate = .idle
  lcnt : t.lcnt = 0
  cur : t.cur.toNat = a + n + vs.length
  pend : t.pend = (s.pend && vs.isEmpty)
  anyw : t.anyw = (s.anyw || !vs.isEmpty)
  events : t.events = s.events ++
    (vs.zipIdx n).map fun p => .data (BitVec.ofNat 12 (a + p.2)) p.1 (p.2 = 0)
  counts : ∀ x, t.ut.read x =
    if a + n ≤ x ∧ x < a + n + vs.length then satIncUcw s.cfg (s.ut.read x) else s.ut.read x

namespace WordsLanded

variable {a n : Nat} {s t : State}

theorem nil (hp : s.phase = .decode) (hd : s.dstate = .idle) (hl : s.lcnt = 0) (hcur : s.cur.toNat = a + n) :
    WordsLanded a n [] s s where
  phase := hp
  dstate := hd
  lcnt := hl
  cur := hcur
  pend := (Bool.and_true _).symm
  anyw := (Bool.or_false _).symm
  events := (List.append_nil _).symm
  counts x := (if_neg (by simp only [List.length_nil]; omega)).symm

/-- One word in front: it lands at the cursor, marked where it is the first after the address. -/
theorem cons {v : Addr} {vs : List Addr} {rest : List Request} (hl : s.lcnt = 0) (hcur : s.cur.toNat = a + n)
    (hpend : s.pend = decide (n = 0)) (h : WordsLanded a (n + 1) vs (s.afterDataWrite v rest) t) :
    WordsLanded a n (v :: vs) s t where
  phase := h.phase
  dstate := h.dstate
  lcnt := h.lcnt
  cur := by rw [h.cur, List.length_cons]; omega
  pend := h.pend.trans (Bool.and_false _).symm
  anyw := h.anyw.trans (Bool.or_true _).symm
  events := by
    have haddr : cursorAddr s.cur = BitVec.ofNat 12 (a + n) := by
      rw [← hcur]
      apply BitVec.eq_of_toNat_eq
      simp [cursorAddr]
    rw [h.events, List.zipIdx_cons, List.map_cons, ← haddr, ← hpend]
    simp [State.afterDataWrite, hl, leaderReport]
  counts x := by
    have hread : (s.afterDataWrite v rest).ut.read x =
        if a + n = x then satIncUcw s.cfg (s.ut.read x) else s.ut.read x := by
      rw [State.afterDataWrite, Memory.read_write, hcur]
      split_ifs with hx
      · rw [hx]
      · rfl
    rw [h.counts x, hread, List.length_cons]
    by_cases hx : a + n = x
    · rw [if_neg (by omega), if_pos hx, if_pos (by omega)]
    · rw [if_neg hx]
      exact if_congr (by omega) rfl rfl

end WordsLanded

/-- The DataWrites of WORDS end at a boundary and land one after another, as far as the table reaches. -/
theorem run_dataWrites (a : Nat) (vs : List Addr) {n : Nat} {s : State} {rest : List Request}
    (hp : s.phase = .decode) (hd : s.dstate = .idle) (hl : s.lcnt = 0) (hcur : s.cur.toNat = a + n)
    (hpend : s.pend = decide (n = 0)) (hfit : a + n + vs.length ≤ 4096)
    (h : s.pending = (vs.flatMap fun v => encodeRecord (.dataWrite v)).map byteRequest ++ rest) :
    ∃ t : State, Host.Core.run core (2 * vs.length) s = Host.Outcome.next t ∧ t.pending = rest ∧
      WordsLanded a n vs s t := by
  induction vs generalizing n s with
  | nil => exact ⟨s, rfl, h, WordsLanded.nil hp hd hl hcur⟩
  | cons v vs ih =>
    rw [List.length_cons] at hfit
    rw [List.flatMap_cons, List.map_append, List.append_assoc] at h
    have hnext : (s.cur + 1#13).toNat = a + (n + 1) := by
      rw [BitVec.toNat_add, hcur, BitVec.toNat_ofNat]
      omega
    obtain ⟨t, hrun, hpending, hland⟩ :=
      ih (n := n + 1) (s := s.afterDataWrite v _) hp rfl rfl hnext rfl (by omega) rfl
    exact ⟨t, (run_dataWrite hp hd (by omega) h _).trans hrun, hpending, hland.cons hl hcur hpend⟩

/-- Settles O50: it holds. The AddressSet puts the cursor at `a` and marks what comes next; the DataWrites after it each
count the cursor's entry and move on by one. -/
theorem wordsLandAtConsecutiveAddresses : Obligations.WordsLandAtConsecutiveAddresses := by
  intro a vs rest s hp hd hfit h
  rw [wordsBytes, List.map_append, List.append_assoc] at h
  have hcur : (a.setWidth 13).toNat = a.toNat + 0 := BitVec.toNat_setWidth_of_le (by decide)
  obtain ⟨t, hrun, hpending, hland⟩ :=
    run_dataWrites a.toNat vs (n := 0) (s := s.afterAddressSet a _) hp rfl rfl hcur rfl hfit rfl
  refine ⟨t, ?_, hpending, hland.phase, hland.dstate, hland.lcnt, hland.cur, hland.pend, hland.anyw, ?_, fun x => ?_⟩
  · rw [Nat.add_comm]
    exact (run_addressSet hp hd h _).trans hrun
  · rw [hland.events, State.afterAddressSet, List.append_assoc _ [_]]
    rfl
  · have hcount : t.ut.read x = if a.toNat ≤ x ∧ x < a.toNat + vs.length then satIncUcw s.cfg (s.ut.read x)
        else s.ut.read x := hland.counts x
    rw [hcount, satIncUcw, ucwMax, ← ite_and]
    simp only [and_assoc]

end Sys2Proof.Machine
end

section
/-! O6, O17, O18: a byte is the instruction it decodes to, in every state (40_record_decoder.md R120). -/

namespace Sys2Proof.Machine

/-- Settles O17: it holds. Whatever a byte decodes to in the block's phase and sub-state is carried out as that byte. -/
theorem byteIsItsDecoding : Obligations.ByteIsItsDecoding :=
  fun b s => (exec_decodeByte s b).symm

/-- Settles O6: it holds. A step decodes the request it takes, and the decoder undoes the encoder (O1). -/
theorem stepRunsDecodedInstruction : Obligations.StepRunsDecodedInstruction := by
  have hstep : ∀ (s : State) (r : Request) (rest : List Request), s.pending = r :: rest →
      step s = exec (decode s.phase s.dstate r) { s with pending := rest } := by
    intro s r rest h
    rw [step, State.nextRequest_some h]
  refine ⟨fun i s rest hwf hread h => ?_, hstep⟩
  rw [hstep s _ rest h, decodeInvertsEncode i _ _ hwf hread]

/-- The phase check asks of its body only what it does in a legal phase. -/
theorem State.gate_congr {s : State} {legal : Option Phase} {body body' : State → State}
    (h : legal = some s.phase → body s = body' s) (op : BitVec 2) : s.gate legal op body = s.gate legal op body' := by
  by_cases hl : legal = some s.phase
  · simp only [State.gate, h hl]
  · by_cases hp : s.phase = .fault
    · rw [State.gate_fault hp, State.gate_fault hp]
    · rw [State.gate_illegal hp hl, State.gate_illegal hp hl]

/-- A record instruction acts as the byte `b'` where, in DECODE, its step or its own byte's is that of `b'`. -/
theorem present_eq_byte {s : State} {d : DState} {b b' : Byte} {body : State → State}
    (h : s.phase = .decode → (if s.dstate = d then body s else s.takeByte b) = s.takeByte b') :
    Host.Outcome.next (s.present d b body) = exec (.byte b') s :=
  congrArg Host.Outcome.next (State.gate_congr (fun hp => h (Option.some.inj hp).symm) _)

/-- A record instruction outside the sub-state that reads it acts as its byte does there (30_encoding.md R95, R103). -/
theorem present_outside {s : State} {d : DState} (h : ¬(s.phase = .decode ∧ s.dstate = d)) (b : Byte)
    (body : State → State) : Host.Outcome.next (s.present d b body) = exec (.byte b) s :=
  present_eq_byte fun hp => if_neg fun hd => h ⟨hp, hd⟩

/-- Settles O18: it holds. Where the decoder reads the instruction, its byte decodes to it again (O1) and does what it
decodes to (O17); elsewhere the instruction is presented as its byte. -/
theorem recordInstructionIsItsByte : Obligations.RecordInstructionIsItsByte := by
  intro i b s hwf henc
  by_cases hread : i.readIn s.phase s.dstate = true
  · rw [byteIsItsDecoding b s, ← henc, decodeInvertsEncode i _ _ hwf hread]
  cases i with
  | leader | field f x | invalid n | addr h | addrB2 t l | data h | dataB2 t l =>
    obtain ⟨-, rfl⟩ := Request.op.inj henc
    exact present_outside (by simpa [Instr.readIn] using hread) _ _
  | byte b' =>
    obtain ⟨-, rfl⟩ := Request.op.inj henc
    rfl
  | endOp | scan | reservedOp => exact absurd (Request.op.inj henc).1 (by decide)
  | reset | count _ | cell _ | pair _ | reg _ => exact absurd henc nofun

end Sys2Proof.Machine
end

section
/-! O8 to O15: the record bytes in the sub-state that reads them, and BYTE at a record boundary
(40_record_decoder.md R120 to R128). -/

namespace Sys2Proof.Machine

theorem join_eq_ofNat (hi lo : Half) : join hi lo = BitVec.ofNat 12 (64 * hi.toNat + lo.toNat) := by
  apply BitVec.eq_of_toNat_eq
  rw [join, BitVec.toNat_append, ← Nat.shiftLeft_add_eq_or_of_lt lo.isLt, Nat.shiftLeft_eq, BitVec.toNat_ofNat]
  omega

theorem join_setWidth_eq_ofNat (hi lo : Half) :
    (join hi lo).setWidth 13 = BitVec.ofNat 13 (64 * hi.toNat + lo.toNat) := by
  apply BitVec.eq_of_toNat_eq
  rw [join_eq_ofNat, BitVec.toNat_setWidth, BitVec.toNat_ofNat, BitVec.toNat_ofNat]
  omega

theorem cursorAddr_eq_ofNat (c : Cursor) : cursorAddr c = BitVec.ofNat 12 c.toNat := by
  apply BitVec.eq_of_toNat_eq
  simp [cursorAddr]

/-- Settles O8: it holds. At a boundary LEADER is the saturating count and nothing else. -/
theorem leaderByteCountsSaturating : Obligations.LeaderByteCountsSaturating :=
  fun _ hp hd => congrArg Host.Outcome.next (State.present_own hp hd _ _)

/-- Settles O9: it holds. FIELD flushes the run and reports its number. -/
theorem fieldReportsItsNumber : Obligations.FieldReportsItsNumber :=
  fun f _ s hp hd => congrArg Host.Outcome.next ((State.present_own hp hd _ _).trans (s.fieldByte_eq f))

/-- Settles O10: it holds. INVALID flushes the run and reports itself. -/
theorem invalidReportsItself : Obligations.InvalidReportsItself :=
  fun _ s _ hp hd => congrArg Host.Outcome.next ((State.present_own hp hd _ _).trans s.invalidByte_eq)

/-- Settles O11: it holds. The first byte of either long record flushes the run, holds its half and waits. -/
theorem firstByteHoldsHighHalf : Obligations.FirstByteHoldsHighHalf :=
  fun h s hp hd =>
    ⟨congrArg Host.Outcome.next ((State.present_own hp hd _ _).trans (s.addrHigh_eq h)),
      congrArg Host.Outcome.next ((State.present_own hp hd _ _).trans (s.dataHigh_eq h))⟩

/-- Settles O12: it holds. The address is HOLD's half before the continuation's. -/
theorem addrContinuationSetsCursor : Obligations.AddrContinuationSetsCursor := by
  intro t l s hp hd
  rw [exec_addrB2_of_waitAddr hp hd, State.addrLow_eq, join_setWidth_eq_ofNat, join_eq_ofNat]

/-- Settles O13: it holds. Inside the table an accepted DataWrite writes the one entry at the cursor. -/
theorem dataContinuationCountsAtCursor : Obligations.DataContinuationCountsAtCursor := by
  intro t l s hp hd hcur
  refine ⟨_, exec_dataB2_of_waitData hp hd t l, ?_⟩
  rw [State.dataLow_counts hcur]
  refine ⟨?_, Memory.read_write_same _ _ _, fun a ha => Memory.read_write_other _ _ ha.symm⟩
  have hnext : s.cur + 1#13 = BitVec.ofNat 13 (s.cur.toNat + 1) := by
    rw [BitVec.ofNat_add, BitVec.ofNat_toNat, BitVec.setWidth_eq]
  rw [cursorAddr_eq_ofNat, join_eq_ofNat, hnext]

/-- Settles O14: it holds. Past the table's end the index check comes before any write or event. -/
theorem dataPastTheTableRaisesRange : Obligations.DataPastTheTableRaisesRange := by
  intro t l s hp hd hcur
  have hrange : 4095 < s.cur.toNat := by rw [hcur]; decide
  have hinfo : indexInfo s.cur.toNat = 0x1000#16 := by rw [hcur]; decide
  rw [exec_dataB2_of_waitData hp hd, State.dataLow_range hrange, hinfo, State.raise]

/-- Settles O15: it holds. The byte's range gives its class (O3), and each class does what O8 to O11 say. -/
theorem byteAtRecordBoundary : Obligations.ByteAtRecordBoundary := by
  intro b s hp hd
  obtain ⟨hdata, haddr, hleader, hinvalid, hfield⟩ := firstByteDecodeMap b
  rw [exec_byte_of_decode hp, State.takeByte_idle hd, ← exec_decodeFirst hp hd]
  by_cases h80 : b.toNat = 0x80
  · rw [if_pos h80, hleader h80, leaderByteCountsSaturating s hp hd]
  rw [if_neg h80]
  by_cases hC0 : 0xC0 ≤ b.toNat
  · rw [if_pos hC0, hfield hC0, fieldReportsItsNumber _ _ s hp hd]
  rw [if_neg hC0]
  by_cases h81 : 0x81 ≤ b.toNat
  · have hn : BitVec.ofNat 6 (b.toNat - 0x80) ≠ 0#6 := by
      intro h
      have := congrArg BitVec.toNat h
      simp only [BitVec.toNat_ofNat] at this
      omega
    rw [if_pos h81, hinvalid h81 (by omega), invalidReportsItself _ s hn hp hd]
  rw [if_neg h81]
  by_cases h40 : 0x40 ≤ b.toNat
  · rw [if_pos h40, haddr h40 (by omega), (firstByteHoldsHighHalf _ s hp hd).1]
  · rw [if_neg h40, hdata (by omega), (firstByteHoldsHighHalf _ s hp hd).2]

end Sys2Proof.Machine
end

section
/-! O24, O25: END at a record boundary (40_record_decoder.md R129). -/

namespace Sys2Proof.Machine

theorem exec_endOp_of_decode {s : State} (hp : s.phase = .decode) : exec .endOp s = .next s.endStream :=
  congrArg Host.Outcome.next (State.gate_legal hp (by decide) _ _)

/-- Settles O24: it holds, the one case of END at a boundary without the two conditions of the correction. -/
theorem endWithoutCorrection : Obligations.EndWithoutCorrection := by
  intro s hp hd hno
  rw [exec_endOp_of_decode hp]
  rcases s.endStream_cases with ⟨hw, _⟩ | ⟨hw, _⟩ | ⟨_, _, h⟩ | ⟨_, hck, hanyw, _⟩ | ⟨_, hck, hanyw, _⟩
  · exact absurd (hd.symm.trans hw) nofun
  · exact absurd (hd.symm.trans hw) nofun
  · rw [h]
  · simp [hck, hanyw] at hno
  · simp [hck, hanyw] at hno

/-- Settles O25: it holds, the one case of END at a boundary that corrects inside the table. -/
theorem endCorrectsEntryBeforeCursor : Obligations.EndCorrectsEntryBeforeCursor := by
  intro s hp hd hck hanyw hlo hhi
  refine ⟨_, exec_endOp_of_decode hp, ?_⟩
  rcases s.endStream_cases with ⟨hw, _⟩ | ⟨hw, _⟩ | ⟨_, hno, _⟩ | ⟨_, _, _, _, _, h⟩ | ⟨_, _, _, hout, _⟩
  · exact absurd (hd.symm.trans hw) nofun
  · exact absurd (hd.symm.trans hw) nofun
  · exact absurd ⟨hck, hanyw⟩ hno
  · rw [h]
    exact ⟨rfl, Memory.read_write_same _ _ _, fun a ha => Memory.read_write_other _ _ ha.symm⟩
  · omega

end Sys2Proof.Machine
end

section
/-! O48: a run of any length goes on, and takes one request a step (10_state.md R44; 40_record_decoder.md R134). -/

namespace Sys2Proof.Machine

/-! ### No operation writes the configuration -/

theorem State.firstByte_cfg (s : State) (b : Byte) : (s.firstByte b).cfg = s.cfg := by
  rw [State.firstByte_frame]

theorem State.takeByte_cfg (s : State) (b : Byte) : (s.takeByte b).cfg = s.cfg := by
  rcases s.takeByte_cases b with ⟨_, h⟩ | ⟨_, h⟩ | ⟨_, _, h⟩ | ⟨_, _, h⟩ <;> rw [h]
  · exact s.firstByte_cfg b
  · rfl
  · rfl

theorem State.endStream_cfg (s : State) : s.endStream.cfg = s.cfg := by
  rcases s.endStream_cases with ⟨_, h⟩ | ⟨_, h⟩ | ⟨_, _, h⟩ | ⟨_, _, _, _, _, h⟩ | ⟨_, _, _, _, h⟩ <;> simp [h]

theorem State.carryOut_cfg (s : State) (r : Request) : (s.carryOut r).cfg = s.cfg :=
  State.carryOut_induct (P := fun t => t.cfg = s.cfg) r
    (ignored := rfl)
    (command := fun _ => rfl)
    (byte := fun b _ => s.takeByte_cfg b)
    (finish := fun _ => s.endStream_cfg)
    (scan := fun _ => rfl)
    (reset := rfl)
    (read := fun _ => rfl)

/-! ### The requests of a run -/

/-- A step, idle or not, leaves the requests after the first. -/
theorem step_drops_request (s : State) :
    ∃ t, step s = .next t ∧ t.pending = s.pending.drop 1 ∧ t.cfg = s.cfg := by
  cases h : s.pending with
  | nil => exact ⟨s, step_of_nothing_pending h, h, rfl⟩
  | cons r rest => exact ⟨_, step_of_pending h, State.carryOut_pending _ r, State.carryOut_cfg _ r⟩

/-- Settles O48: it holds, by induction on the number of steps. -/
theorem runsNeverStopAndTakeOneRequestEach : Obligations.RunsNeverStopAndTakeOneRequestEach := by
  intro k
  induction k with
  | zero => exact fun s => ⟨s, rfl, rfl, rfl⟩
  | succ k ih =>
    intro s
    obtain ⟨u, hstep, hupending, hucfg⟩ := step_drops_request s
    obtain ⟨t, hrun, hpending, hcfg⟩ := ih u
    refine ⟨t, (run_succ hstep k).trans hrun, ?_, hcfg.trans hucfg⟩
    rw [hpending, hupending, List.drop_drop, Nat.add_comm]

end Sys2Proof.Machine
end

section
/-! O43: what each form of an instruction appends to the event stream (40_record_decoder.md R130, R131). -/

namespace Sys2Proof.Machine

theorem leaderReport_cases (n : Nat) : leaderReport n = [] ∨ 0 < n ∧ leaderReport n = [.leader n] := by
  by_cases h : 0 < n
  · exact .inr ⟨h, if_pos h⟩
  · exact .inl (if_neg h)

theorem leader_mem_leaderReport {m n : Nat} (h : .leader m ∈ leaderReport n) : 0 < m ∧ m = n := by
  rcases leaderReport_cases n with hr | ⟨hn, hr⟩ <;> rw [hr] at h
  · exact absurd h List.not_mem_nil
  · obtain rfl := Event.leader.inj (List.mem_singleton.1 h)
    exact ⟨hn, rfl⟩

theorem length_leaderReport_le (n : Nat) : (leaderReport n).length ≤ 1 := by
  rcases leaderReport_cases n with hr | ⟨_, hr⟩ <;> simp [hr]

/-- The events that the instruction `i` appends in the state `s`. `Effect.sends` ties it to the model. -/
inductive Sends (s : State) (i : Instr) : List Event → Prop where
  /-- no event -/
  | nothing : Sends s i []
  /-- END at a boundary and the first byte of a long record report the run alone (40_record_decoder.md R122) -/
  | flush : isByte (encode i) = true ∨ i = .endOp → Sends s i (leaderReport s.lcnt)
  /-- FIELD and INVALID report the run and then themselves (40_record_decoder.md R123, R124) -/
  | report (e : Event) : s.dstate = .idle → isByte (encode i) = true → (e = .invalid ∨ ∃ f, e = .field f) →
    Sends s i (leaderReport s.lcnt ++ [e])
  /-- a continuation reports the record it completes (40_record_decoder.md R127, R128) -/
  | complete (e : Event) : isByte (encode i) = true → (∀ n, e ≠ .leader n) → Sends s i [e]
  /-- SCAN reports its regions (41_accumulator_scanner.md R152) -/
  | regions : i = .scan → Sends s i ((scanRegions s.ut).map regionEvent)

/-- The state a byte at a boundary leaves has just the events of its class more. -/
theorem State.firstByte_sends {s : State} {i : Instr} (hd : s.dstate = .idle) (hi : isByte (encode i) = true) (b : Byte) :
    ∃ es, (s.firstByte b).events = s.events ++ es ∧ Sends s i es := by
  rcases s.firstByte_cases b with ⟨_, h⟩ | ⟨_, _, h⟩ | ⟨_, _, h⟩ | ⟨_, _, h⟩ | ⟨_, _, h⟩ <;> rw [h]
  · exact ⟨[], (List.append_nil _).symm, .nothing⟩
  · rw [State.fieldByte_eq]
    exact ⟨_, List.append_assoc _ _ _, .report _ hd hi (.inr ⟨_, rfl⟩)⟩
  · rw [State.invalidByte_eq]
    exact ⟨_, List.append_assoc _ _ _, .report _ hd hi (.inl rfl)⟩
  · rw [State.addrHigh_eq]
    exact ⟨_, rfl, .flush (.inl hi)⟩
  · rw [State.dataHigh_eq]
    exact ⟨_, rfl, .flush (.inl hi)⟩

theorem Effect.sends {s t : State} {i : Instr} (h : Effect s i t) : ∃ es, t.events = s.events ++ es ∧ Sends s i es := by
  have silent : ∃ es, s.events = s.events ++ es ∧ Sends s i es := ⟨[], (List.append_nil _).symm, .nothing⟩
  cases h with
  | ignored | command | reset | read => exact silent
  | byte _ b _ hi =>
    rcases s.takeByte_cases b with ⟨hd, h⟩ | ⟨_, h⟩ | ⟨_, _, h⟩ | ⟨_, _, h⟩ <;> rw [h]
    · exact State.firstByte_sends hd hi b
    · exact ⟨_, rfl, .complete _ hi nofun⟩
    · exact ⟨_, rfl, .complete _ hi nofun⟩
    · exact silent
  | finish =>
    rcases s.endStream_cases with ⟨_, h⟩ | ⟨_, h⟩ | ⟨_, _, h⟩ | ⟨_, _, _, _, _, h⟩ | ⟨_, _, _, _, h⟩ <;> rw [h]
    · exact silent
    · exact silent
    · exact ⟨_, rfl, .flush (.inr rfl)⟩
    · exact ⟨_, rfl, .flush (.inr rfl)⟩
    · exact ⟨_, rfl, .flush (.inr rfl)⟩
  | scan => exact ⟨_, rfl, .regions rfl⟩

namespace Sends

variable {s : State} {i : Instr} {es : List Event}

theorem leader_count (h : Sends s i es) {n : Nat} (hn : .leader n ∈ es) : 0 < n ∧ n = s.lcnt := by
  cases h with
  | nothing => exact absurd hn List.not_mem_nil
  | flush => exact leader_mem_leaderReport hn
  | report e _ _ he =>
    rcases List.mem_append.1 hn with hn | hn
    · exact leader_mem_leaderReport hn
    · obtain rfl := List.mem_singleton.1 hn
      simp at he
  | complete e _ he => exact absurd (List.mem_singleton.1 hn).symm (he n)
  | regions => simp [regionEvent] at hn

theorem length_le_two (h : Sends s i es) (hscan : i ≠ .scan) : es.length ≤ 2 := by
  have hrun := length_leaderReport_le s.lcnt
  cases h with
  | nothing => simp
  | flush => omega
  | report e _ _ _ => rw [List.length_append, List.length_singleton]; omega
  | complete e _ _ => simp
  | regions hi => exact absurd hi hscan

theorem length_le (h : Sends s i es) : es.length ≤ 2048 := by
  by_cases hscan : i = .scan
  · cases h with
    | regions => simpa using length_scanRegions_le s.ut
    | nothing => simp
    | flush hi => simp [hscan, encode, scanRequest, isByte] at hi
    | report e _ hi _ | complete e hi _ => simp [hscan, encode, scanRequest, isByte] at hi
  · exact (h.length_le_two hscan).trans (by decide)

/-- Two events are sent only where a byte that is a record of its own ends a run. -/
theorem two (h : Sends s i es) (hscan : i ≠ .scan) (hlen : es.length = 2) :
    s.dstate = .idle ∧ isByte (encode i) = true ∧
      ∃ n, 0 < n ∧ (es = [.leader n, .invalid] ∨ ∃ f, es = [.leader n, .field f]) := by
  cases h with
  | nothing => simp at hlen
  | flush => have := length_leaderReport_le s.lcnt; omega
  | report e hd hi he =>
    rcases leaderReport_cases s.lcnt with hr | ⟨hn, hr⟩ <;> rw [hr] at hlen ⊢
    · simp at hlen
    · refine ⟨hd, hi, s.lcnt, hn, ?_⟩
      rcases he with rfl | ⟨f, rfl⟩
      · exact .inl rfl
      · exact .inr ⟨f, rfl⟩
  | complete => simp at hlen
  | regions hi => exact absurd hi hscan

theorem eq_nil (h : Sends s i es) (hbyte : isByte (encode i) = false) (hend : i ≠ .endOp) (hscan : i ≠ .scan) :
    es = [] := by
  cases h with
  | nothing => rfl
  | flush hi => simp [hbyte, hend] at hi
  | report e _ hi _ | complete e hi _ => exact absurd (hbyte.symm.trans hi) nofun
  | regions hi => exact absurd hi hscan

end Sends

/-- Settles O43: it holds. Every effect appends what `Sends` lists, and at most two events come from a byte or END. -/
theorem eventsAreAppendedInTheSpecsNumbers : Obligations.EventsAreAppendedInTheSpecsNumbers := by
  intro i s t ht
  obtain ⟨es, hes, h⟩ := (effect_of_exec ht).sends
  have le_one : i ≠ .scan → ¬(s.dstate = .idle ∧ isByte (encode i) = true) → es.length ≤ 1 := by
    intro hscan hno
    have hle := h.length_le_two hscan
    by_contra hlen
    obtain ⟨hd, hi, _⟩ := h.two hscan (by omega)
    exact hno ⟨hd, hi⟩
  refine ⟨es, hes, h.length_le, fun n => h.leader_count, h.length_le_two, fun hscan hd => ?_, fun hi => ?_,
    fun hscan hlen => ?_, fun hi => ?_⟩
  · exact le_one hscan fun hno => hd hno.1
  · subst hi
    exact le_one nofun fun hno => absurd hno.2 (by decide)
  · obtain ⟨hd, _, hn⟩ := h.two hscan hlen
    exact ⟨hd, hn⟩
  · rcases hi with rfl | rfl | ⟨_, rfl⟩ | ⟨_, rfl⟩ | ⟨_, rfl⟩ | ⟨_, rfl⟩ <;> exact h.eq_nil rfl nofun nofun

end Sys2Proof.Machine
end

section
/-! O40: the frame table (40_record_decoder.md R132, R135). -/

namespace Sys2Proof.Machine

/-! ### The byte behind an instruction -/

/-- INVALID without low bits, which no byte encodes, acts as another Invalid at a boundary and elsewhere as the leader
byte that its bits spell. -/
theorem exec_invalid_zero (s : State) :
    exec (.invalid 0#6) s = exec (.byte (if s.dstate = .idle then 0x81#8 else 0x80#8)) s := by
  refine present_eq_byte fun _ => ?_
  by_cases hd : s.dstate = .idle
  · rw [if_pos hd, if_pos hd, State.takeByte_idle hd, State.invalidByte_eq_firstByte]
  · rw [if_neg hd, if_neg hd]
    rfl

/-- An instruction written as a byte acts as that byte, or as one that, like it, starts no record of two bytes. -/
theorem exec_of_isByte {i : Instr} (hi : isByte (encode i) = true) (s : State) :
    ∃ b b' : Byte, encode i = .op 0b00#2 b ∧ exec i s = exec (.byte b') s ∧ (b' = b ∨ 0x80 ≤ b'.toNat) := by
  obtain ⟨b, henc⟩ : ∃ b, encode i = .op 0b00#2 b := by
    cases h : encode i with
    | op code b => exact ⟨b, by rw [h] at hi; rw [of_decide_eq_true hi]⟩
    | rst | count _ | cell _ | pair _ | reg _ => rw [h] at hi; exact absurd hi nofun
  by_cases hwf : i.wellFormed = true
  · exact ⟨b, b, henc, recordInstructionIsItsByte i b s hwf henc, .inl rfl⟩
  cases i with
  | invalid n =>
    obtain rfl : n = 0#6 := by simpa [Instr.wellFormed] using hwf
    exact ⟨b, _, henc, exec_invalid_zero s, .inr (by split <;> decide)⟩
  | leader | field _ _ | addr _ | addrB2 _ _ | data _ | dataB2 _ _ | byte _ | endOp | scan | reservedOp | reset | count _
  | cell _ | pair _ | reg _ => exact absurd rfl hwf

/-- The wait state a first byte leads to: the one of its record of two bytes (40_record_decoder.md R125, R126). -/
def waitOf (b : Byte) : DState := if 0x40 ≤ b.toNat then .waitAddr else .waitData

/-- A first byte writes DSTATE and HOLD only where it starts a record of two bytes. -/
theorem State.firstByte_waits (s : State) (b : Byte) :
    (b.toNat < 0x80 ∧ (s.firstByte b).dstate = waitOf b) ∨
    ((s.firstByte b).dstate = s.dstate ∧ (s.firstByte b).hold = s.hold) := by
  have htag := byteTag_toNat b
  rcases s.firstByte_cases b with ⟨_, h⟩ | ⟨_, _, h⟩ | ⟨_, _, h⟩ | ⟨_, ht, h⟩ | ⟨_, ht, h⟩ <;> rw [h]
  · exact .inr ⟨rfl, rfl⟩
  · rw [State.fieldByte_eq]
    exact .inr ⟨rfl, rfl⟩
  · rw [State.invalidByte_eq]
    exact .inr ⟨rfl, rfl⟩
  · rw [ht, BitVec.toNat_ofNat] at htag
    rw [State.addrHigh_eq, waitOf, if_pos (by omega)]
    exact .inl ⟨by omega, rfl⟩
  · rw [ht, BitVec.toNat_ofNat] at htag
    rw [State.dataHigh_eq, waitOf, if_neg (by omega)]
    exact .inl ⟨by omega, rfl⟩

/-! ### The rows of the frame table -/

/-- The frame table of an instruction other than RESET, a field for each of its elements and forms; a row whose element
does not change is filled by default. `frame_of_exec` ties it to the model. -/
structure Frame (s : State) (i : Instr) (t : State) : Prop where
  phase : t.phase ≠ s.phase →
    (i = .endOp ∧ s.phase = .decode ∧ s.dstate = .idle ∧ t.phase = .done) ∨ (s.phase ≠ .fault ∧ t.phase = .fault) := by
    exact fun h => absurd rfl h
  dstate : t.dstate ≠ s.dstate → s.phase = .decode ∧ ∃ b : Byte, encode i = .op 0b00#2 b ∧
    (s.dstate = .idle → b.toNat < 0x80 ∧ t.dstate = waitOf b) ∧ (s.dstate ≠ .idle → t.dstate = .idle) := by
    exact fun h => absurd rfl h
  hold : t.hold ≠ s.hold → s.phase = .decode ∧ s.dstate = .idle ∧ ∃ b : Byte, encode i = .op 0b00#2 b ∧
    b.toNat < 0x80 ∧ t.dstate = waitOf b := by
    exact fun h => absurd rfl h
  lcnt : t.lcnt ≠ s.lcnt → s.phase = .decode ∧ s.dstate = .idle ∧ (isByte (encode i) = true ∨ i = .endOp) := by
    exact fun h => absurd rfl h
  cur : t.cur ≠ s.cur → s.phase = .decode ∧ s.dstate ≠ .idle ∧ isByte (encode i) = true ∧ t.dstate = .idle := by
    exact fun h => absurd rfl h
  pend : t.pend ≠ s.pend → s.phase = .decode ∧ s.dstate ≠ .idle ∧ isByte (encode i) = true ∧ t.dstate = .idle := by
    exact fun h => absurd rfl h
  anyw : t.anyw ≠ s.anyw →
    s.phase = .decode ∧ s.dstate = .waitData ∧ isByte (encode i) = true ∧ t.dstate = .idle ∧ t.anyw = true := by
    exact fun h => absurd rfl h
  ovl : t.ovl ≠ s.ovl → i = .scan ∧ s.phase = .done := by
    exact fun h => absurd rfl h
  fault : t.fcode ≠ s.fcode ∨ t.finfo ≠ s.finfo → s.phase ≠ .fault ∧ t.phase = .fault := by
    exact fun h => h.elim (absurd rfl) (absurd rfl)
  counts : s.countsAtCursor i → ∀ a : Nat, a ≠ s.cur.toNat → t.ut.read a = s.ut.read a := by
    exact fun _ _ _ => rfl
  corrects : s.correctsBeforeCursor i → ∀ a : Nat, a ≠ s.cur.toNat - 1 → t.ut.read a = s.ut.read a := by
    exact fun _ _ _ => rfl
  table : ¬s.countsAtCursor i → ¬s.correctsBeforeCursor i → t.ut = s.ut := by
    exact fun _ _ => rfl

namespace Frame

variable {s : State} {i : Instr}

theorem unchanged : Frame s i s where

theorem answer (v : ReadValue) : Frame s i (s.answer v) where

theorem raise (hp : s.phase ≠ .fault) (f : FaultCode) (info : Word16) : Frame s i (s.raise f info) where
  phase _ := .inr ⟨hp, rfl⟩
  fault _ := ⟨hp, rfl⟩

theorem scanTable (hp : s.phase = .done) : Frame s .scan s.scanTable where
  ovl _ := ⟨rfl, hp⟩

/-- END moves to DONE, or into FAULT, from a boundary with the run flushed, and from a wait state into FAULT alone. -/
theorem endStream (hp : s.phase = .decode) : Frame s .endOp s.endStream := by
  have hnf : s.phase ≠ .fault := by simp [hp]
  rcases s.endStream_cases with ⟨_, h⟩ | ⟨_, h⟩ | ⟨hd, _, h⟩ | ⟨hd, hck, hanyw, hlo, hhi, h⟩ | ⟨hd, _, _, _, h⟩ <;> rw [h]
  · exact raise hnf _ _
  · exact raise hnf _ _
  · exact { phase := fun _ => .inl ⟨rfl, hp, hd, rfl⟩, lcnt := fun _ => ⟨hp, hd, .inr rfl⟩ }
  · exact {
      phase := fun _ => .inl ⟨rfl, hp, hd, rfl⟩
      lcnt := fun _ => ⟨hp, hd, .inr rfl⟩
      counts := fun ⟨_, hwait, _⟩ => absurd (hd.symm.trans hwait) nofun
      corrects := fun _ a ha => Memory.read_write_other _ _ ha.symm
      table := fun _ hno => absurd ⟨hp, hd, rfl, hck, hanyw, hlo, hhi⟩ hno }
  · exact { phase := fun _ => .inr ⟨hnf, rfl⟩, lcnt := fun _ => ⟨hp, hd, .inr rfl⟩, fault := fun _ => ⟨hnf, rfl⟩ }

/-- A first byte writes LCNT, and DSTATE and HOLD where it is the instruction's own byte and starts a record of two. -/
theorem firstByte (hp : s.phase = .decode) (hd : s.dstate = .idle) (hi : isByte (encode i) = true) {b b' : Byte}
    (henc : encode i = .op 0b00#2 b) (hb : b' = b ∨ 0x80 ≤ b'.toNat) : Frame s i (s.firstByte b') := by
  have hwaits : (s.firstByte b').dstate ≠ s.dstate ∨ (s.firstByte b').hold ≠ s.hold →
      b.toNat < 0x80 ∧ (s.firstByte b').dstate = waitOf b := by
    intro hne
    rcases s.firstByte_waits b' with ⟨hlt, hw⟩ | ⟨hsame, hhold⟩
    · obtain rfl : b' = b := hb.resolve_right (by omega)
      exact ⟨hlt, hw⟩
    · exact absurd hne (by simp [hsame, hhold])
  rw [s.firstByte_frame b']
  exact {
    dstate := fun h => ⟨hp, b, henc, fun _ => hwaits (.inl h), fun hne => absurd hd hne⟩
    hold := fun h => ⟨hp, hd, b, henc, hwaits (.inr h)⟩
    lcnt := fun _ => ⟨hp, hd, .inl hi⟩ }

/-- A byte in DECODE is a first byte, or completes its record at CUR, or finds CUR past the table. -/
theorem takeByte (hp : s.phase = .decode) (hi : isByte (encode i) = true) {b b' : Byte} (henc : encode i = .op 0b00#2 b)
    (hb : b' = b ∨ 0x80 ≤ b'.toNat) : Frame s i (s.takeByte b') := by
  rcases s.takeByte_cases b' with ⟨hd, h⟩ | ⟨hd, h⟩ | ⟨hd, hcur, h⟩ | ⟨_, _, h⟩ <;> rw [h]
  · exact firstByte hp hd hi henc hb
  · have hne : s.dstate ≠ .idle := by simp [hd]
    exact {
      dstate := fun _ => ⟨hp, b, henc, fun h => absurd h hne, fun _ => rfl⟩
      cur := fun _ => ⟨hp, hne, hi, rfl⟩
      pend := fun _ => ⟨hp, hne, hi, rfl⟩ }
  · have hne : s.dstate ≠ .idle := by simp [hd]
    exact {
      dstate := fun _ => ⟨hp, b, henc, fun h => absurd h hne, fun _ => rfl⟩
      cur := fun _ => ⟨hp, hne, hi, rfl⟩
      pend := fun _ => ⟨hp, hne, hi, rfl⟩
      anyw := fun _ => ⟨hp, hd, hi, rfl, rfl⟩
      counts := fun _ a ha => Memory.read_write_other _ _ ha.symm
      corrects := fun ⟨_, hidle, _⟩ => absurd hidle hne
      table := fun hno => absurd ⟨hp, hd, hi, hcur⟩ hno }
  · exact raise (by simp [hp]) _ _

end Frame

/-- Every instruction but RESET keeps to the frame table. -/
theorem frame_of_exec {i : Instr} {s t : State} (hreset : i ≠ .reset) (ht : exec i s = .next t) : Frame s i t := by
  by_cases hi : isByte (encode i) = true
  · obtain ⟨b, b', henc, hexec, hb⟩ := exec_of_isByte hi s
    obtain rfl := Host.Outcome.next.inj (hexec.symm.trans ht)
    rcases s.gate_cases (some .decode) 0b00#2 fun s => s.takeByte b' with ⟨_, h⟩ | ⟨_, hp, h⟩ | ⟨hp, _, h⟩ <;> rw [h]
    · exact Frame.unchanged
    · exact Frame.takeByte (Option.some.inj hp).symm hi henc hb
    · exact Frame.raise hp _ _
  · cases effect_of_exec ht with
    | ignored => exact Frame.unchanged
    | command _ _ hp => exact Frame.raise hp _ _
    | byte _ _ _ h => exact absurd h hi
    | finish hp => exact Frame.endStream hp
    | scan hp => exact Frame.scanTable hp
    | reset => exact absurd rfl hreset
    | read => exact Frame.answer _

/-- No instruction, RESET included, writes the configuration or the host's requests (10_state.md R42, R44). -/
theorem Effect.keeps_host_side {s t : State} {i : Instr} (h : Effect s i t) :
    t.cfg = s.cfg ∧ t.pending = s.pending := by
  cases h with
  | ignored | command | scan | reset | read => exact ⟨rfl, rfl⟩
  | byte _ b => exact ⟨s.takeByte_cfg b, s.takeByte_pending b⟩
  | finish => exact ⟨s.endStream_cfg, s.endStream_pending⟩

/-- Settles O40: it holds, by the rows of `Frame`. -/
theorem frameTable : Obligations.FrameTable := by
  intro i s t ht
  obtain ⟨hcfg, hpending⟩ := (effect_of_exec ht).keeps_host_side
  refine ⟨hcfg, hpending, fun hreset => ?_⟩
  have h := frame_of_exec hreset ht
  exact ⟨h.phase, h.dstate, h.hold, h.lcnt, h.cur, h.pend, h.anyw, h.ovl, h.fault, h.counts, h.corrects, h.table⟩

end Sys2Proof.Machine
end

section
/-! O26: the correction of END with no entry before the cursor (41_accumulator_scanner.md R151). -/

namespace Sys2Proof.Machine

/-- Settles O26: it holds, the one case of END at a boundary that corrects outside the table. -/
theorem endCorrectionBelowTheTableRaisesRange : Obligations.EndCorrectionBelowTheTableRaisesRange := by
  intro s hp hd hck hanyw hcur
  have hinfo : indexInfo ((s.cur.toNat : Int) - 1) = 0xFFFF#16 := by rw [hcur]; decide
  rw [exec_endOp_of_decode hp, ← hinfo]
  rcases s.endStream_cases with ⟨hw, _⟩ | ⟨hw, _⟩ | ⟨_, hno, _⟩ | ⟨_, _, _, hlo, _, _⟩ | ⟨_, _, _, _, h⟩
  · exact absurd (hd.symm.trans hw) nofun
  · exact absurd (hd.symm.trans hw) nofun
  · exact absurd ⟨hck, hanyw⟩ hno
  · rw [hcur] at hlo
    exact absurd hlo (by decide)
  · rw [h]

end Sys2Proof.Machine
end

section
/-! O33 to O36: the read ports (41_accumulator_scanner.md R155 to R158). -/

namespace Sys2Proof.Machine

/-! ### The map classes, a rule for each -/

theorem cellClass_of_overlap {c : Int} (h : 2 ≤ c) : cellClass c = 2#2 := if_pos h

theorem cellClass_of_negative {c : Int} (h : c < 0) : cellClass c = 3#2 := by
  rw [cellClass, if_neg (by omega), if_neg (by omega), if_neg (by omega)]

theorem pairClass_of_overlap {c0 c1 : Int} (h : 2 ≤ c0 ∨ 2 ≤ c1) : pairClass c0 c1 = 2#2 := if_pos h

theorem pairClass_of_single {c0 c1 : Int} (h0 : c0 < 2) (h1 : c1 < 2) (h : c0 = 1 ∨ c1 = 1) :
    pairClass c0 c1 = 1#2 := by
  rw [pairClass, if_neg (by omega), if_pos h]

theorem pairClass_of_negative {c0 c1 : Int} (h0 : c0 < 1) (h1 : c1 < 1) (h : c0 < 0 ∨ c1 < 0) :
    pairClass c0 c1 = 3#2 := by
  rw [pairClass, if_neg (by omega), if_neg (by omega), if_neg (by omega)]

/-! ### COUNT, CELL and PAIR -/

/-- Settles O33: it holds, since the answer is all that COUNT writes. -/
theorem countAnswersTheEntry : Obligations.CountAnswersTheEntry := fun _ _ => rfl

theorem exec_cell_of_class {a : Addr} {s : State} {c : BitVec 2} (h : cellClass (s.ut.read a.toNat) = c) :
    exec (.cell a) s = .next { s with readOut := some (.cell c) } := by
  rw [← h]
  rfl

/-- Settles O34: it holds, class by class. -/
theorem cellAnswersTheClass : Obligations.CellAnswersTheClass := by
  intro a s
  refine ⟨fun h => ?_, fun h => ?_, fun h => ?_, fun h => ?_⟩
  · exact exec_cell_of_class (cellClass_of_overlap h)
  · exact exec_cell_of_class (by rw [h]; rfl)
  · exact exec_cell_of_class (by rw [h]; rfl)
  · exact exec_cell_of_class (cellClass_of_negative h)

/-- Settles O35: it holds, class by class. -/
theorem pairAnswersTheClass : Obligations.PairAnswersTheClass := by
  rintro j s _ _ rfl rfl
  have answers : ∀ {c : BitVec 2}, pairClass (s.ut.read (2 * j.toNat)) (s.ut.read (2 * j.toNat + 1)) = c →
      exec (.pair j) s = .next { s with readOut := some (.pair c) } := by
    rintro _ rfl
    rfl
  refine ⟨fun h => ?_, fun h0 h1 h => ?_, fun h0 h1 => ?_, fun h0 h1 h => ?_⟩
  · exact answers (pairClass_of_overlap h)
  · exact answers (pairClass_of_single h0 h1 h)
  · exact answers (by rw [h0, h1]; rfl)
  · exact answers (pairClass_of_negative h0 h1 h)

/-! ### REG -/

/-- A field in front of `n` lower bits counts from 2 to the `n`. -/
theorem toNat_append_eq_add {m n : Nat} (x : BitVec m) (y : BitVec n) :
    (x ++ y).toNat = x.toNat * 2 ^ n + y.toNat := by
  rw [BitVec.toNat_append, ← Nat.shiftLeft_add_eq_or_of_lt y.isLt, Nat.shiftLeft_eq]

theorem toNat_phaseCode (p : Phase) :
    (phaseCode p).toNat = match p with | .decode => 0 | .done => 1 | .fault => 2 := by
  cases p <;> rfl

theorem toNat_faultCodeBits (f : FaultCode) :
    (faultCodeBits f).toNat = match f with | .none => 0 | .trunc => 1 | .range => 2 | .cmd => 3 := by
  cases f <;> rfl

theorem toNat_dstateCode (d : DState) :
    (dstateCode d).toNat = match d with | .idle => 0 | .waitAddr => 1 | .waitData => 2 := by
  cases d <;> rfl

/-- STATUS is the sum of its fields' codes, each at its place (10_state.md R43). -/
theorem toNat_statusWord (s : State) :
    (statusWord s).toNat =
      (match s.phase with | .decode => 0 | .done => 1 | .fault => 2) +
      4 * (match s.fcode with | .none => 0 | .trunc => 1 | .range => 2 | .cmd => 3) +
      16 * (match s.dstate with | .idle => 0 | .waitAddr => 1 | .waitData => 2) +
      64 * (if s.pend then 1 else 0) + 128 * (if s.anyw then 1 else 0) := by
  have hbit : ∀ b : Bool, (BitVec.ofBool b).toNat = if b then 1 else 0 := by decide
  rw [← toNat_phaseCode, ← toNat_faultCodeBits, ← toNat_dstateCode]
  simp only [statusWord, toNat_append_eq_add, hbit, BitVec.toNat_ofNat]
  omega

/-- Settles O36: it holds. STATUS is the sum of its fields, and a register wider than what it shows has the same
number. -/
theorem regAnswersTheStatusRegisters : Obligations.RegAnswersTheStatusRegisters := by
  intro s
  refine ⟨⟨statusWord s, rfl, toNat_statusWord s⟩, ⟨s.cur.setWidth 16, rfl, ?_⟩, ⟨s.ovl.setWidth 16, rfl, ?_⟩, rfl⟩
  · exact BitVec.toNat_setWidth_of_le (by decide)
  · exact BitVec.toNat_setWidth_of_le (by decide)

end Sys2Proof.Machine
end

section
/-! O28 to O30: the scan's loop, and SCAN in DONE (41_accumulator_scanner.md R152 to R154, R160). -/

namespace Sys2Proof.Machine

/-! ### The regions of a table -/

/-- `r` is an overlap region of the table: a maximal run of counts above 1 (00_scope.md R12). -/
structure IsRegion (m : Memory) (r : Nat × Nat) : Prop where
  start_le_stop : r.1 ≤ r.2
  stop_le : r.2 ≤ 4095
  above : ∀ i, r.1 ≤ i → i ≤ r.2 → 1 < m.read i
  maximal_below : r.1 = 0 ∨ m.read (r.1 - 1) ≤ 1
  maximal_above : r.2 = 4095 ∨ m.read (r.2 + 1) ≤ 1

/-- `rs` are the overlap regions at the indices from `lo` on, in rising order. `scanFrom_regions` ties it to the scan. -/
structure RegionsFrom (m : Memory) (lo : Nat) (rs : List (Nat × Nat)) : Prop where
  ascending : rs.Pairwise fun r r' => r.2 + 1 < r'.1
  regions : ∀ r ∈ rs, IsRegion m r
  starts : ∀ r ∈ rs, lo ≤ r.1
  covers : ∀ i, lo ≤ i → i ≤ 4095 → 1 < m.read i → ∃ r ∈ rs, r.1 ≤ i ∧ i ≤ r.2

/-- From `start` to below `i` all counts are above 1, and the run begins at `start`: what the scan's loop knows of the
region it has open at the index `i`. -/
structure OpenRun (m : Memory) (start i : Nat) : Prop where
  start_lt : start < i
  above : ∀ j, start ≤ j → j < i → 1 < m.read j
  maximal_below : start = 0 ∨ m.read (start - 1) ≤ 1

namespace OpenRun

variable {m : Memory} {start i : Nat}

theorem opened (hbelow : i = 0 ∨ m.read (i - 1) ≤ 1) (hi : 1 < m.read i) : OpenRun m i (i + 1) where
  start_lt := Nat.lt_succ_self i
  above j hlo hhi := by
    obtain rfl : j = i := by omega
    exact hi
  maximal_below := hbelow

theorem extended (h : OpenRun m start i) (hi : 1 < m.read i) : OpenRun m start (i + 1) where
  start_lt := Nat.lt_succ_of_lt h.start_lt
  above j hlo hhi := by
    rcases Nat.lt_succ_iff_lt_or_eq.1 hhi with hlt | rfl
    · exact h.above j hlo hlt
    · exact hi
  maximal_below := h.maximal_below

/-- The run is closed before `i` by the table's end or by a count of at most 1. -/
theorem isRegion (h : OpenRun m start i) (hle : i ≤ 4096) (hi : i = 4096 ∨ m.read i ≤ 1) :
    IsRegion m (start, i - 1) := by
  have hlt := h.start_lt
  have hsucc : i - 1 + 1 = i := by omega
  exact {
    start_le_stop := Nat.le_sub_one_of_lt hlt
    stop_le := by simp only; omega
    above := fun j hlo hhi => h.above j hlo (by simp only at hhi; omega)
    maximal_below := h.maximal_below
    maximal_above := hi.imp (fun h => by simp only; omega) fun h => by simpa only [hsucc] using h }

end OpenRun

namespace RegionsFrom

variable {m : Memory} {i start : Nat} {rs : List (Nat × Nat)}

theorem nil : RegionsFrom m 4096 [] where
  ascending := .nil
  regions := nofun
  starts := nofun
  covers _ hlo hhi := absurd hlo (by omega)

/-- An index outside every region is passed over. -/
theorem skip (h : RegionsFrom m (i + 1) rs) (hi : m.read i ≤ 1) : RegionsFrom m i rs where
  ascending := h.ascending
  regions := h.regions
  starts r hr := Nat.le_of_succ_le (h.starts r hr)
  covers j hlo hhi hj := by
    have hne : j ≠ i := by rintro rfl; omega
    exact h.covers j (by omega) hhi hj

/-- The open run, closed before `i`, is the first region, and the others start after `i`. -/
theorem close (h : RegionsFrom m i rs) (hstarts : ∀ r ∈ rs, i < r.1) (hopen : OpenRun m start i)
    (hregion : IsRegion m (start, i - 1)) : RegionsFrom m start ((start, i - 1) :: rs) := by
  have hlt := hopen.start_lt
  refine ⟨List.pairwise_cons.2 ⟨fun r hr => ?_, h.ascending⟩, fun r hr => ?_, fun r hr => ?_, fun j hlo hhi hj => ?_⟩
  · have hr := hstarts r hr
    exact (Nat.sub_add_cancel (Nat.one_le_of_lt hlt)).trans_lt hr
  · rcases List.mem_cons.1 hr with rfl | hr
    · exact hregion
    · exact h.regions r hr
  · rcases List.mem_cons.1 hr with rfl | hr
    · exact le_rfl
    · exact hlt.le.trans (h.starts r hr)
  · by_cases hji : j < i
    · exact ⟨_, List.mem_cons_self, hlo, Nat.le_sub_one_of_lt hji⟩
    · obtain ⟨r, hr, hmem⟩ := h.covers j (Nat.le_of_not_lt hji) hhi hj
      exact ⟨r, List.mem_cons_of_mem _ hr, hmem⟩

end RegionsFrom

/-- The loop over the last `n` indices reports the regions from its index on, or from the start of its open run. -/
theorem scanFrom_regions (m : Memory) (n : Nat) : ∀ i, i + n = 4096 →
    ((i = 0 ∨ m.read (i - 1) ≤ 1) → RegionsFrom m i (scanFrom m n i none)) ∧
    ∀ start, OpenRun m start i → RegionsFrom m start (scanFrom m n i (some start)) := by
  induction n with
  | zero =>
    intro i hn
    obtain rfl : i = 4096 := hn
    refine ⟨fun _ => RegionsFrom.nil, fun start hopen => ?_⟩
    exact RegionsFrom.nil.close nofun hopen (hopen.isRegion le_rfl (.inl rfl))
  | succ n ih =>
    intro i hn
    obtain ⟨outside, inside⟩ := ih (i + 1) (by omega)
    constructor
    · intro hbelow
      rw [scanFrom_outside]
      split_ifs with hi
      · exact inside i (OpenRun.opened hbelow hi)
      · exact (outside (.inr (not_lt.1 hi))).skip (not_lt.1 hi)
    · intro start hopen
      rw [scanFrom_inside]
      split_ifs with hi
      · exact inside start (hopen.extended hi)
      · have hle : m.read i ≤ 1 := not_lt.1 hi
        have hafter := outside (.inr hle)
        exact (hafter.skip hle).close hafter.starts hopen (hopen.isRegion (by omega) (.inr hle))

theorem scanRegions_regions (m : Memory) : RegionsFrom m 0 (scanRegions m) :=
  (scanFrom_regions m 4096 0 rfl).1 (.inl rfl)

/-! ### SCAN in DONE -/

theorem exec_scan_of_done {s : State} (hp : s.phase = .done) : exec .scan s = .next s.scanTable :=
  congrArg Host.Outcome.next (State.gate_legal hp (by decide) _ _)

/-- Settles O28: it holds. The loop's regions are the overlap regions, and two of them have an index between them. -/
theorem scanReportsMaximalOverlapRegions : Obligations.ScanReportsMaximalOverlapRegions := by
  intro s hp
  have h := scanRegions_regions s.ut
  refine ⟨scanRegions s.ut, exec_scan_of_done hp, length_scanRegions_le s.ut, h.ascending, fun r hr => ?_,
    fun i => h.covers i (Nat.zero_le i)⟩
  obtain ⟨hle, hstop, habove, hbelow, hafter⟩ := h.regions r hr
  exact ⟨hle, hstop, habove, hbelow, hafter⟩

/-- SCAN asked in DONE is carried out. -/
theorem step_scanRequest {s : State} {rest : List Request} (hp : s.phase = .done)
    (h : s.pending = scanRequest :: rest) : step s = .next { s with pending := rest }.scanTable := by
  rw [step_of_pending h]
  exact congrArg Host.Outcome.next (State.gate_legal (s := { s with pending := rest }) hp (by decide) 0b10#2 _)

/-- The state after `n` scans of `s`, at least one, with the requests `rest` before it. `run_scans` ties it to the
model. -/
def State.afterScans (s : State) (n : Nat) (rest : List Request) : State :=
  { s.scanTable with
    pending := rest
    events := s.events ++ (List.replicate n ((scanRegions s.ut).map regionEvent)).flatten }

theorem State.afterScans_one (s : State) (rest : List Request) :
    { s with pending := rest }.scanTable = s.afterScans 1 rest := by
  simp [State.scanTable, State.afterScans]

/-- A scan finds after another what that one found. -/
theorem State.afterScans_succ (s : State) (n : Nat) (next rest : List Request) :
    { s with pending := next }.scanTable.afterScans n rest = s.afterScans (n + 1) rest := by
  simp [State.scanTable, State.afterScans, List.replicate_succ]

theorem run_scans (n : Nat) {s : State} {rest : List Request} (hp : s.phase = .done)
    (h : s.pending = List.replicate (n + 1) scanRequest ++ rest) :
    Host.Core.run core (n + 1) s = Host.Outcome.next (s.afterScans (n + 1) rest) := by
  induction n generalizing s with
  | zero =>
    exact (run_succ (step_scanRequest hp h) 0).trans (congrArg Host.Outcome.next (s.afterScans_one rest))
  | succ n ih =>
    have hrest := ih (s := State.scanTable { s with pending := _ }) hp rfl
    exact (run_succ (step_scanRequest hp h) (n + 1)).trans
      (hrest.trans (congrArg Host.Outcome.next (s.afterScans_succ (n + 1) _ rest)))

/-- Settles O29: it holds. A scan writes neither the table nor the phase, so the next one finds what it found. -/
theorem repeatedScansRepeatTheResult : Obligations.RepeatedScansRepeatTheResult := by
  intro n s rest hp h
  exact ⟨_, _, _, exec_scan_of_done hp, rfl, run_scans n hp h, rfl⟩

/-- The loop asks of a count only whether it is above 1. -/
theorem scanFrom_congr {m m' : Memory} (n : Nat) : ∀ (i : Nat) (o : Option Nat),
    (∀ j, i ≤ j → j < i + n → (1 < m.read j ↔ 1 < m'.read j)) → scanFrom m n i o = scanFrom m' n i o := by
  induction n with
  | zero => intro i o _; cases o <;> rfl
  | succ n ih =>
    intro i o h
    have hi : m.read i > 1 ↔ m'.read i > 1 := h i le_rfl (by omega)
    have hafter : ∀ o, scanFrom m n (i + 1) o = scanFrom m' n (i + 1) o :=
      fun o => ih (i + 1) o fun j hlo hhi => h j (by omega) (by omega)
    cases o with
    | none => simp only [scanFrom_outside, hafter, hi]
    | some start => simp only [scanFrom_inside, hafter, hi]

/-- Settles O30: it holds, since tables alike in that have the same regions. -/
theorem scanDependsOnlyOnCountsAboveOne : Obligations.ScanDependsOnlyOnCountsAboveOne := by
  intro s s' t t' hp hp' hcounts ht ht'
  obtain rfl := Host.Outcome.next.inj ((exec_scan_of_done hp).symm.trans ht)
  obtain rfl := Host.Outcome.next.inj ((exec_scan_of_done hp').symm.trans ht')
  have hregions : scanRegions s.ut = scanRegions s'.ut :=
    scanFrom_congr 4096 0 none fun j _ hj => hcounts j (by omega)
  exact ⟨by rw [State.scanTable_ovl, State.scanTable_ovl, hregions], _, s.scanTable_events, by
    rw [State.scanTable_events, hregions]⟩

end Sys2Proof.Machine
end

section
/-! O51: the counts of the table add up to the DATA events (41_accumulator_scanner.md R159). -/

namespace Sys2Proof.Machine

/-! ### Counting events and adding up the table -/

@[simp] theorem dataCount_append (es es' : List Event) : dataCount (es ++ es') = dataCount es + dataCount es' :=
  List.countP_append

@[simp] theorem dataCount_leaderReport (n : Nat) : dataCount (leaderReport n) = 0 := by
  rcases leaderReport_cases n with h | ⟨_, h⟩ <;> rw [h] <;> rfl

/-- No first byte completes a DataWrite. -/
theorem State.firstByte_dataCount (s : State) (b : Byte) :
    dataCount (s.firstByte b).events = dataCount s.events := by
  rcases s.firstByte_cases b with ⟨_, h⟩ | ⟨_, _, h⟩ | ⟨_, _, h⟩ | ⟨_, _, h⟩ | ⟨_, _, h⟩ <;> rw [h]
  · rfl
  · rw [State.fieldByte_eq, dataCount_append, dataCount_append, dataCount_leaderReport]; rfl
  · rw [State.invalidByte_eq, dataCount_append, dataCount_append, dataCount_leaderReport]; rfl
  · rw [State.addrHigh_eq, dataCount_append, dataCount_leaderReport]; rfl
  · rw [State.dataHigh_eq, dataCount_append, dataCount_leaderReport]; rfl

theorem tableSum_eq_sum (m : Memory) : tableSum m = ∑ i ∈ Finset.range 4096, m.read i := rfl

/-- A write moves the sum by what it moves its entry by. -/
theorem tableSum_write (m : Memory) {i : Nat} (hi : i < 4096) (v : Int) :
    tableSum (m.write i v) = tableSum m + (v - m.read i) := by
  have hread : ∀ j, (m.write i v).read j = m.read j + if i = j then v - m.read i else 0 := by
    intro j
    rw [Memory.read_write]
    split_ifs with hij
    · rw [hij]; omega
    · omega
  simp only [tableSum_eq_sum, hread, Finset.sum_add_distrib, Finset.sum_ite_eq, Finset.mem_range, hi, if_true]

/-! ### The law in DECODE and FAULT -/

/-- The law of a run that `c` DATA events came before and that has not reached DONE: the counts add up to its DATA
events, and ANYW says whether it has sent any. -/
structure Tallied (c : Nat) (s : State) : Prop where
  not_done : s.phase ≠ .done
  earlier : c ≤ dataCount s.events
  sum : tableSum s.ut = (dataCount s.events : Int) - c
  anyw : s.anyw = true ↔ c < dataCount s.events

theorem State.carryOut_byteRequest_of_fault {s : State} (hp : s.phase = .fault) (b : Byte) :
    s.carryOut (byteRequest b) = s := by
  rw [byteRequest, State.carryOut, if_pos rfl, State.gate_fault hp]

namespace Tallied

variable {c : Nat} {s t : State}

theorem of_atReset (h : s.AtReset) : Tallied (dataCount s.events) s where
  not_done := by rw [h.phase]; decide
  earlier := le_rfl
  sum := by simp [h.ut, tableSum_eq_sum]
  anyw := by simp [h.anyw]

/-- The law speaks of PHASE, the table, ANYW and the DATA events alone. -/
theorem of_same (h : Tallied c s) (hp : t.phase ≠ .done) (hcount : dataCount t.events = dataCount s.events)
    (hut : t.ut = s.ut) (hanyw : t.anyw = s.anyw) : Tallied c t where
  not_done := hp
  earlier := by rw [hcount]; exact h.earlier
  sum := by rw [hcount, hut]; exact h.sum
  anyw := by rw [hcount, hanyw]; exact h.anyw

theorem issued (h : Tallied c s) (rest : List Request) : Tallied c { s with pending := rest } := { h with }

/-- A DataWrite that does not saturate adds one to both sides. -/
theorem takeByte (h : Tallied c s) (hsat : s.dstate = .waitData → s.ut.read s.cur.toNat < ucwMax s.cfg)
    (b : Byte) : Tallied c (s.takeByte b) := by
  have earlier := h.earlier
  rcases s.takeByte_cases b with ⟨_, hb⟩ | ⟨_, hb⟩ | ⟨hd, hcur, hb⟩ | ⟨_, _, hb⟩ <;> rw [hb]
  · exact h.of_same (by rw [s.firstByte_phase]; exact h.not_done) (s.firstByte_dataCount b) (s.firstByte_ut b)
      (s.firstByte_anyw b)
  · exact h.of_same h.not_done (dataCount_append _ _) rfl rfl
  · have hcount : ∀ a v mark, dataCount (s.events ++ [.data a v mark]) = dataCount s.events + 1 :=
      fun _ _ _ => dataCount_append _ _
    have hinc : satIncUcw s.cfg (s.ut.read s.cur.toNat) = s.ut.read s.cur.toNat + 1 := if_pos (hsat hd)
    have hsum := h.sum
    refine ⟨h.not_done, ?_, ?_, ?_⟩
    · rw [hcount]; omega
    · rw [hcount, tableSum_write _ (by omega), hinc]; omega
    · rw [hcount]; exact iff_of_true rfl (by omega)
  · exact h.of_same nofun rfl rfl rfl

theorem carryOut_byteRequest (h : Tallied c s)
    (hsat : s.phase = .decode → s.dstate = .waitData → s.ut.read s.cur.toNat < ucwMax s.cfg) (b : Byte) :
    Tallied c (s.carryOut (byteRequest b)) := by
  cases hp : s.phase with
  | decode =>
    rw [State.carryOut_byteRequest_of_decode hp]
    exact h.takeByte (hsat hp) b
  | done => exact absurd hp h.not_done
  | fault =>
    rw [State.carryOut_byteRequest_of_fault hp]
    exact h

end Tallied

/-- A byte of a run without saturation finds its entry, if it counts one, below the maximum, and so does the rest of the
run. -/
theorem neverSaturates_byte {s t : State} {b : Byte} {rest : List Request} {k : Nat}
    (h : s.pending = byteRequest b :: rest) (hstep : step s = .next t) (hn : neverSaturates (k + 1) s = true) :
    (s.phase = .decode → s.dstate = .waitData → s.ut.read s.cur.toNat < ucwMax s.cfg) ∧
      neverSaturates k t = true := by
  have hbyte : isByte (byteRequest b) = true := rfl
  simp only [neverSaturates, hstep, h, Bool.and_eq_true] at hn
  refine ⟨fun hp hd => ?_, hn.2⟩
  simpa [hp, hd, hbyte] using hn.1

/-- The bytes of a run without saturation keep the law. -/
theorem Tallied.run_bytes {c : Nat} (bs : List Byte) {s : State} {rest : List Request} (ht : Tallied c s)
    (h : s.pending = bs.map byteRequest ++ rest) (hn : neverSaturates bs.length s = true) (k : Nat) :
    ∃ u : State, Host.Core.run core (k + bs.length) s = Host.Core.run core k u ∧ u.pending = rest ∧ Tallied c u := by
  induction bs generalizing s with
  | nil => exact ⟨s, rfl, h, ht⟩
  | cons b bs ih =>
    have hstep := step_of_pending h
    obtain ⟨hsat, hn⟩ := neverSaturates_byte h hstep hn
    have next := (ht.issued (bs.map byteRequest ++ rest)).carryOut_byteRequest hsat b
    obtain ⟨u, hrun, hu⟩ := ih next (State.carryOut_pending _ _) hn
    exact ⟨u, (run_succ hstep _).trans hrun, hu⟩

/-- What END in DECODE makes of the law: the correction, if it runs, takes one from the sum. -/
theorem Tallied.endStream {c : Nat} {s : State} (h : Tallied c s) (hdone : s.endStream.phase = .done) :
    tableSum s.endStream.ut = ((dataCount s.endStream.events : Int) - c) -
      (if s.cfg.ck = true ∧ c < dataCount s.endStream.events then 1 else 0) := by
  have hcount : dataCount (s.events ++ leaderReport s.lcnt) = dataCount s.events := by simp
  rcases s.endStream_cases with ⟨_, he⟩ | ⟨_, he⟩ | ⟨_, hno, he⟩ | ⟨_, hck, hanyw, hlo, hhi, he⟩ | ⟨_, _, _, _, he⟩ <;>
    rw [he] at hdone ⊢
  · exact absurd hdone nofun
  · exact absurd hdone nofun
  · rw [h.anyw] at hno
    rw [hcount, if_neg hno, Int.sub_zero]
    exact h.sum
  · rw [hcount, if_pos ⟨hck, h.anyw.1 hanyw⟩, tableSum_write _ (by omega), h.sum]
    omega
  · exact absurd hdone nofun

theorem State.carryOut_endRequest (s : State) :
    s.carryOut endRequest = s.gate (some .decode) 0b01#2 State.endStream := rfl

/-- The law after END, wherever it leads to DONE. -/
theorem Tallied.carryOut_endRequest {c : Nat} {s : State} (h : Tallied c s)
    (hdone : (s.carryOut endRequest).phase = .done) :
    tableSum (s.carryOut endRequest).ut = ((dataCount (s.carryOut endRequest).events : Int) - c) -
      (if s.cfg.ck = true ∧ c < dataCount (s.carryOut endRequest).events then 1 else 0) := by
  rw [State.carryOut_endRequest] at hdone ⊢
  rcases s.gate_cases (some .decode) 0b01#2 State.endStream with ⟨hp, hg⟩ | ⟨_, _, hg⟩ | ⟨_, _, hg⟩ <;>
    rw [hg] at hdone ⊢
  · exact absurd hdone h.not_done
  · exact h.endStream hdone
  · exact absurd hdone nofun

/-- Settles O51: it holds. The bytes keep the law, whatever they are, and END takes the correction from it. -/
theorem tableSumIsTheNumberOfDataWrites : Obligations.TableSumIsTheNumberOfDataWrites := by
  intro bs rest s t hreset h hn hrun hdone
  obtain ⟨u, hbytes, hu, htallied⟩ := (Tallied.of_atReset hreset).run_bytes bs h hn 1
  obtain ⟨t', hrun', _, hcfg⟩ := runsNeverStopAndTakeOneRequestEach (bs.length + 1) s
  obtain rfl := Host.Outcome.next.inj (hrun.symm.trans hrun')
  have hend : Host.Core.run core (bs.length + 1) s =
      Host.Outcome.next ({ u with pending := rest }.carryOut endRequest) := by
    rw [Nat.add_comm]
    exact hbytes.trans (run_succ (step_of_pending hu) 0)
  obtain rfl := Host.Outcome.next.inj (hrun.symm.trans hend)
  rw [← hcfg, State.carryOut_cfg]
  exact (htallied.issued rest).carryOut_endRequest hdone

end Sys2Proof.Machine
end

section
/-! O52. The value of a DataWrite reaches HOLD and a DATA event, neither of which any operation reads again once the record
is complete (41_accumulator_scanner.md R161). -/

namespace Sys2Proof.Machine

/-! ### The next request issued -/

/-- `s` once the host has issued its next request, if it has one. -/
def State.issue (s : State) : State := { s with pending := s.pending.tail }

/-- The state after the next request, `r`. `run_serve` ties it to the model. -/
def State.serve (s : State) (r : Request) : State := s.issue.carryOut r

theorem run_serve (s : State) : Host.Core.run core s.pending.length s =
    Host.Outcome.next (s.pending.foldl State.serve s) := by
  generalize hreqs : s.pending = reqs
  induction reqs generalizing s with
  | nil => rfl
  | cons r reqs ih =>
    have hstep : step s = .next (s.serve r) := by
      rw [State.serve, State.issue, hreqs]
      exact step_of_pending hreqs
    have hrest : (s.serve r).pending = reqs := by
      rw [State.serve, State.carryOut_pending, State.issue, hreqs, List.tail_cons]
    exact (run_succ hstep reqs.length).trans (ih (s.serve r) hrest)

/-! ### Two states that differ in values -/

/-- `s'` is `s` but for HOLD, the values of its DATA events and the requests to come. -/
inductive Alike (s : State) : State → Prop where
  | but (hold : Half) (events : List Event) (pending : List Request)
      (hevents : events.map Event.withoutValue = s.events.map Event.withoutValue) :
      Alike s { s with hold := hold, events := events, pending := pending }

/-- HOLD agrees too wherever an operation still reads it: in DECODE inside a record. -/
structure Matched (s s' : State) : Prop where
  alike : Alike s s'
  hold : s.phase = .decode → s.dstate ≠ .idle → s'.hold = s.hold

namespace Alike

variable {s s' : State} (h : Alike s s')
include h

theorem phase : s'.phase = s.phase := by cases h; rfl

theorem dstate : s'.dstate = s.dstate := by cases h; rfl

theorem matched_of_idle (hd : s.dstate = .idle) : Matched s s' := ⟨h, fun _ hne => absurd hd hne⟩

theorem matched_of_not_decode (hp : s.phase ≠ .decode) : Matched s s' := ⟨h, fun hdec => absurd hdec hp⟩

theorem issue : Alike s.issue s'.issue := by
  obtain ⟨hold, events, pending, hevents⟩ := h
  exact .but hold events pending.tail hevents

theorem raise (f : FaultCode) (info : Word16) : Matched (s.raise f info) (s'.raise f info) := by
  obtain ⟨hold, events, pending, hevents⟩ := h
  exact matched_of_not_decode (.but hold events pending hevents) nofun

theorem flushLeader : Alike s.flushLeader s'.flushLeader := by
  obtain ⟨hold, events, pending, hevents⟩ := h
  rw [State.flushLeader_eq, State.flushLeader_eq]
  exact .but hold _ pending (by simp only [List.map_append, hevents])

/-- A DataWrite that starts may hold another half in either state. -/
theorem dataHigh (half half' : Half) : Alike (s.dataHigh half) (s'.dataHigh half') := by
  obtain ⟨_, events, pending, hevents⟩ := h
  rw [State.dataHigh_eq, State.dataHigh_eq]
  exact .but half' _ pending (by simp only [List.map_append, hevents])

/-- A DataWrite that completes may have another value in either state: it counts at the cursor, or finds the cursor past the
table, in both. -/
theorem dataLow (half half' : Half) : Matched (s.dataLow half) (s'.dataLow half') := by
  rcases Nat.lt_or_ge 4095 s.cur.toNat with hcur | hcur
  · have hcur' : s'.cur = s.cur := by cases h; rfl
    rw [State.dataLow_range hcur, State.dataLow_range (hcur' ▸ hcur), hcur']
    exact h.raise _ _
  · obtain ⟨hold, events, pending, hevents⟩ := h
    rw [State.dataLow_counts hcur, State.dataLow_counts (by exact hcur)]
    exact matched_of_idle (.but hold _ pending (by simp only [List.map_append, hevents]; rfl)) rfl

theorem firstByte (hd : s.dstate = .idle) (b : Byte) : Matched (s.firstByte b) (s'.firstByte b) := by
  obtain ⟨hold, events, pending, hevents⟩ := h
  unfold State.firstByte
  split_ifs
  · exact matched_of_idle (.but hold events pending hevents) hd
  · rw [State.fieldByte_eq, State.fieldByte_eq]
    exact matched_of_idle (.but hold _ pending (by simp only [List.map_append, hevents])) hd
  · rw [State.invalidByte_eq, State.invalidByte_eq]
    exact matched_of_idle (.but hold _ pending (by simp only [List.map_append, hevents])) hd
  · rw [State.addrHigh_eq, State.addrHigh_eq]
    exact ⟨.but _ _ pending (by simp only [List.map_append, hevents]), fun _ _ => rfl⟩
  · rw [State.dataHigh_eq, State.dataHigh_eq]
    exact ⟨.but _ _ pending (by simp only [List.map_append, hevents]), fun _ _ => rfl⟩

/-- The flush, the correction and the end of the stream read no HOLD. -/
theorem finishStream : Matched s.finishStream s'.finishStream := by
  have hmode : s'.cfg = s.cfg ∧ s'.anyw = s.anyw := by cases h; exact ⟨rfl, rfl⟩
  have hflushed := h.flushLeader
  simp only [State.finishStream, hmode]
  generalize s.flushLeader = flushed at hflushed ⊢
  generalize s'.flushLeader = flushed' at hflushed ⊢
  obtain ⟨hold, events, pending, hevents⟩ := hflushed
  by_cases hc : s.cfg.ck = true ∧ s.anyw = true
  · rw [if_pos hc, if_pos hc]
    by_cases hr : 1 ≤ flushed.cur.toNat ∧ flushed.cur.toNat ≤ 4096
    · obtain ⟨hlo, hhi⟩ := hr
      rw [State.checksumCorrection_decrements hlo hhi, State.checksumCorrection_decrements (by exact hlo) (by exact hhi)]
      exact matched_of_not_decode (.but hold events pending hevents) nofun
    · have hout : flushed.cur.toNat = 0 ∨ 4096 < flushed.cur.toNat := by omega
      rw [State.checksumCorrection_range hout, State.checksumCorrection_range (by exact hout)]
      exact matched_of_not_decode (.but hold events pending hevents) nofun
  · rw [if_neg hc, if_neg hc]
    exact matched_of_not_decode (.but hold events pending hevents) nofun

end Alike

namespace Matched

variable {s s' : State} (h : Matched s s')
include h

theorem issue : Matched s.issue s'.issue := ⟨h.alike.issue, h.hold⟩

theorem answer (v : ReadValue) : Matched (s.answer v) (s'.answer v) := by
  obtain ⟨⟨hold, events, pending, hevents⟩, hhold⟩ := h
  exact ⟨.but hold events pending hevents, hhold⟩

theorem takeByte (hp : s.phase = .decode) (b : Byte) : Matched (s.takeByte b) (s'.takeByte b) := by
  have hd' := h.alike.dstate
  cases hd : s.dstate with
  | idle =>
    rw [State.takeByte_idle hd, State.takeByte_idle (hd'.trans hd)]
    exact h.alike.firstByte hd b
  | waitAddr =>
    have hhold := h.hold hp (by rw [hd]; decide)
    rw [State.takeByte_waitAddr hd, State.takeByte_waitAddr (hd'.trans hd), State.addrLow_eq, State.addrLow_eq, hhold]
    obtain ⟨hold, events, pending, hevents⟩ := h.alike
    exact Alike.matched_of_idle (.but _ _ pending (by simp only [List.map_append, hevents])) rfl
  | waitData =>
    rw [State.takeByte_waitData hd, State.takeByte_waitData (hd'.trans hd)]
    exact h.alike.dataLow _ _

theorem endStream (hp : s.phase = .decode) : Matched s.endStream s'.endStream := by
  have hd' := h.alike.dstate
  cases hd : s.dstate with
  | idle =>
    simp only [State.endStream, hd', hd]
    exact h.alike.finishStream
  | waitAddr | waitData =>
    have hhold := h.hold hp (by rw [hd]; decide)
    simp only [State.endStream, hd', hd, hhold]
    exact h.alike.raise _ _

theorem scanTable (hp : s.phase = .done) : Matched s.scanTable s'.scanTable := by
  obtain ⟨hold, events, pending, hevents⟩ := h.alike
  exact Alike.matched_of_not_decode (.but hold _ pending (by simp only [State.scanTable_events, List.map_append, hevents]))
    (by rw [State.scanTable_phase, hp]; decide)

theorem resetBlock : Matched s.resetBlock s'.resetBlock := by
  obtain ⟨hold, events, pending, hevents⟩ := h.alike
  exact Alike.matched_of_idle (.but _ events pending hevents) rfl

theorem gate {legal : Option Phase} {body : State → State}
    (hbody : legal = some s.phase → Matched (body s) (body s')) (op : BitVec 2) :
    Matched (s.gate legal op body) (s'.gate legal op body) := by
  have hp' := h.alike.phase
  rcases s.gate_cases legal op body with ⟨hp, hg⟩ | ⟨hp, hlegal, hg⟩ | ⟨hp, hlegal, hg⟩ <;> rw [hg]
  · rw [State.gate_fault (hp'.trans hp)]
    exact h
  · rw [hlegal, State.gate_legal hp' hp]
    exact hbody hlegal
  · rw [State.gate_illegal (by rwa [hp']) (by rwa [hp']), hp']
    exact h.alike.raise _ _

/-- No request's effect reads HOLD at a record boundary, or the events. -/
theorem carryOut (r : Request) : Matched (s.carryOut r) (s'.carryOut r) := by
  cases r with
  | op code b =>
    simp only [State.carryOut]
    split_ifs
    · exact h.gate (fun hp => h.takeByte (Option.some.inj hp).symm b) _
    · exact h.gate (fun hp => h.endStream (Option.some.inj hp).symm) _
    · exact h.gate (fun hp => h.scanTable (Option.some.inj hp).symm) _
    · exact h.gate (fun _ => h) _
  | rst => exact h.resetBlock
  | count a | cell a | pair j | reg n =>
    have same : s'.ut = s.ut ∧ ∀ n, statusRegister n s' = statusRegister n s := by
      cases h.alike
      exact ⟨rfl, fun _ => rfl⟩
    simp only [State.carryOut, same]
    exact h.answer _

end Matched

theorem Matched.serve {s s' : State} (h : Matched s s') (r : Request) : Matched (s.serve r) (s'.serve r) :=
  h.issue.carryOut r

theorem Matched.serve_all (reqs : List Request) {s s' : State} (h : Matched s s') :
    Matched (reqs.foldl State.serve s) (reqs.foldl State.serve s') := by
  induction reqs generalizing s s' with
  | nil => exact h
  | cons r reqs ih => exact ih (h.serve r)

/-! ### Records -/

/-- The block is at a record boundary, if it decodes at all. -/
def State.AtBoundary (s : State) : Prop := s.phase = .decode → s.dstate = .idle

/-- The block is inside a record, if it decodes at all. -/
def State.InRecord (s : State) : Prop := s.phase = .decode → s.dstate ≠ .idle

/-- Outside DECODE no byte is read, and none leads back (60_exceptions.md R203, R205). -/
theorem State.carryOut_byteRequest_outside {s : State} (hp : s.phase ≠ .decode) (b : Byte) :
    (s.carryOut (byteRequest b)).phase ≠ .decode ∧
      ∀ b', s.carryOut (byteRequest b') = s.carryOut (byteRequest b) := by
  have hgate : ∀ b, s.carryOut (byteRequest b) = s.gate (some .decode) 0b00#2 fun s => s.takeByte b := fun _ => rfl
  have hillegal : some Phase.decode ≠ some s.phase := fun h => hp (Option.some.inj h).symm
  refine ⟨?_, fun b' => ?_⟩
  · rw [hgate]
    rcases s.gate_cases (some .decode) 0b00#2 fun s => s.takeByte b with ⟨_, hg⟩ | ⟨_, hlegal, _⟩ | ⟨_, _, hg⟩
    · rwa [hg]
    · exact absurd hlegal hillegal
    · rw [hg]; exact nofun
  · rw [hgate, hgate]
    exact State.gate_congr (fun hlegal => absurd hlegal hillegal) _

/-- A byte leads to DECODE only from DECODE, where the sub-state takes it. -/
theorem State.of_carryOut_byteRequest_decode {s : State} {b : Byte} (h : (s.carryOut (byteRequest b)).phase = .decode) :
    s.phase = .decode ∧ s.carryOut (byteRequest b) = s.takeByte b := by
  by_cases hp : s.phase = .decode
  · exact ⟨hp, State.carryOut_byteRequest_of_decode hp b⟩
  · exact absurd h (State.carryOut_byteRequest_outside hp b).1

namespace State.AtBoundary

variable {s : State} (h : s.AtBoundary)
include h

theorem issue : s.issue.AtBoundary := h

/-- A byte that is a record of its own leaves the block at the boundary. -/
theorem short {b : Byte} (hb : 0x80 ≤ b.toNat) : (s.carryOut (byteRequest b)).AtBoundary := by
  intro hdec
  obtain ⟨hp, ht⟩ := State.of_carryOut_byteRequest_decode hdec
  rw [ht, State.takeByte_idle (h hp)]
  rcases s.firstByte_waits b with ⟨hlt, _⟩ | ⟨hsame, _⟩
  · omega
  · exact hsame.trans (h hp)

/-- The first byte of a long record leaves the block waiting for the second. -/
theorem first {t : BitVec 2} (ht : t = 0b01#2 ∨ t = 0b00#2) (half : Half) :
    (s.carryOut (byteRequest (tagged t half))).InRecord := by
  intro hdec
  obtain ⟨hp, hbyte⟩ := State.of_carryOut_byteRequest_decode hdec
  rw [hbyte, State.takeByte_idle (h hp)]
  rcases ht with rfl | rfl
  · rw [← State.addrHigh_eq_firstByte, State.addrHigh_eq]; exact nofun
  · rw [← State.dataHigh_eq_firstByte, State.dataHigh_eq]; exact nofun

end State.AtBoundary

theorem State.InRecord.issue {s : State} (h : s.InRecord) : s.issue.InRecord := h

/-- The continuation completes the record or faults. -/
theorem State.InRecord.continuation {s : State} (h : s.InRecord) (b : Byte) :
    (s.carryOut (byteRequest b)).AtBoundary := by
  intro hdec
  obtain ⟨hp, hbyte⟩ := State.of_carryOut_byteRequest_decode hdec
  rw [hbyte] at hdec ⊢
  rcases s.takeByte_cases b with ⟨hd, _⟩ | ⟨_, ht⟩ | ⟨_, _, ht⟩ | ⟨_, _, ht⟩
  · exact absurd hd (h hp)
  · rw [ht]; rfl
  · rw [ht]
  · rw [ht] at hdec; exact absurd hdec nofun

/-- The state after the bytes of a record. -/
def State.serveRecord (s : State) (r : Record) : State := ((encodeRecord r).map byteRequest).foldl State.serve s

theorem State.AtBoundary.serveRecord {s : State} (h : s.AtBoundary) (r : Record) : (s.serveRecord r).AtBoundary := by
  cases r with
  | leader => exact h.issue.short (by decide)
  | fieldSet f => exact h.issue.short (by revert f; decide)
  | invalid n => exact h.issue.short (by revert n; decide)
  | addressSet a => exact (h.issue.first (.inl rfl) _).issue.continuation _
  | dataWrite v => exact (h.issue.first (.inr rfl) _).issue.continuation _

/-- A DataWrite at a boundary in DECODE: the first byte holds a half, the second completes the record. -/
theorem State.serveRecord_dataWrite {s : State} (hp : s.phase = .decode) (hd : s.dstate = .idle) (v : Addr) :
    s.serveRecord (.dataWrite v) = (s.issue.dataHigh (highHalf v)).issue.dataLow (lowHalf v) := by
  have first : s.serve (byteRequest (tagged 0b00#2 (highHalf v))) = s.issue.dataHigh (highHalf v) := by
    rw [State.serve, State.carryOut_byteRequest (by exact hp) (by exact hd), State.dataHigh_eq_firstByte]
  have hwait : (s.issue.dataHigh (highHalf v)).phase = .decode ∧
      (s.issue.dataHigh (highHalf v)).dstate = .waitData := by
    rw [State.dataHigh_eq]
    exact ⟨hp, rfl⟩
  show (s.serve (byteRequest (tagged 0b00#2 (highHalf v)))).serve (byteRequest (tagged 0b00#2 (lowHalf v))) = _
  rw [first, State.serve, State.carryOut_byteRequest_of_decode (by exact hwait.1),
    State.takeByte_waitData (by exact hwait.2), byteHalf_tagged]

/-- Outside DECODE one DataWrite is as good as another. -/
theorem State.serveRecord_dataWrite_outside {s : State} (hp : s.phase ≠ .decode) (v v' : Addr) :
    s.serveRecord (.dataWrite v) = s.serveRecord (.dataWrite v') := by
  have outside : ∀ {s : State}, s.phase ≠ .decode → ∀ b, (s.serve (byteRequest b)).phase ≠ .decode ∧
      ∀ b', s.serve (byteRequest b') = s.serve (byteRequest b) :=
    fun {s} hp => State.carryOut_byteRequest_outside (s := s.issue) hp
  show (s.serve (byteRequest _)).serve (byteRequest _) = (s.serve (byteRequest _)).serve (byteRequest _)
  obtain ⟨hnext, hfirst⟩ := outside hp (tagged 0b00#2 (highHalf v'))
  rw [hfirst, (outside hnext _).2]

/-- The two bytes of a DataWrite at a boundary, with any value in either state. -/
theorem Matched.dataWrite {s s' : State} (h : Matched s s') (hs : s.AtBoundary) (v v' : Addr) :
    Matched (s.serveRecord (.dataWrite v)) (s'.serveRecord (.dataWrite v')) := by
  by_cases hp : s.phase = .decode
  · rw [State.serveRecord_dataWrite hp (hs hp),
      State.serveRecord_dataWrite (h.alike.phase.trans hp) (h.alike.dstate.trans (hs hp))]
    exact (h.alike.issue.dataHigh _ _).issue.dataLow _ _
  · rw [State.serveRecord_dataWrite_outside hp v v']
    exact h.serve_all _

theorem Matched.serveRecord {s s' : State} (h : Matched s s') (hs : s.AtBoundary) {r r' : Record}
    (hr : sameButValue r r') : Matched (s.serveRecord r) (s'.serveRecord r') := by
  rcases hr with rfl | ⟨v, v', rfl, rfl⟩
  · exact h.serve_all _
  · exact h.dataWrite hs v v'

/-- The records end with the two states matched again. -/
theorem Matched.serveRecords {rs rs' : List Record} (hrs : List.Forall₂ sameButValue rs rs') {s s' : State}
    (h : Matched s s') (hs : s.AtBoundary) : Matched (rs.foldl State.serveRecord s) (rs'.foldl State.serveRecord s') := by
  induction hrs generalizing s s' with
  | nil => exact h
  | cons hr _ ih => exact ih (h.serveRecord hs hr) (hs.serveRecord _)

theorem foldl_serve_records (rs : List Record) (rest : List Request) (s : State) :
    ((rs.flatMap encodeRecord).map byteRequest ++ rest).foldl State.serve s =
      rest.foldl State.serve (rs.foldl State.serveRecord s) := by
  induction rs generalizing s with
  | nil => rfl
  | cons r rs ih =>
    rw [List.flatMap_cons, List.map_append, List.append_assoc, List.foldl_append, ih]
    rfl

theorem length_encodeRecord_of_sameButValue {r r' : Record} (h : sameButValue r r') :
    (encodeRecord r).length = (encodeRecord r').length := by
  rcases h with rfl | ⟨v, v', rfl, rfl⟩ <;> rfl

theorem length_bytes_of_sameButValue {rs rs' : List Record} (hrs : List.Forall₂ sameButValue rs rs') :
    (rs.flatMap encodeRecord).length = (rs'.flatMap encodeRecord).length := by
  induction hrs with
  | nil => rfl
  | cons hr _ ih =>
    rw [List.flatMap_cons, List.flatMap_cons, List.length_append, List.length_append, ih,
      length_encodeRecord_of_sameButValue hr]

/-- A run over all that the host asks leaves nothing to ask. -/
theorem pending_of_run {s t : State} (h : Host.Core.run core s.pending.length s = Host.Outcome.next t) :
    t.pending = [] := by
  obtain ⟨t', hrun, hpending, _⟩ := runsNeverStopAndTakeOneRequestEach s.pending.length s
  rw [Host.Outcome.next.inj (h.symm.trans hrun), hpending, List.drop_length]

/-- The state that a run over records and the requests after them ends in. -/
theorem eq_of_run_records {rs : List Record} {rest : List Request} {s t : State}
    (h : s.pending = (rs.flatMap encodeRecord).map byteRequest ++ rest)
    (hrun : Host.Core.run core s.pending.length s = Host.Outcome.next t) :
    t = rest.foldl State.serve (rs.foldl State.serveRecord s) := by
  rw [← foldl_serve_records, ← h]
  exact Host.Outcome.next.inj (hrun.symm.trans (run_serve s))

/-- From two states matched at a boundary, two streams that differ in values alone end in states matched again. -/
theorem Matched.of_run_records {rs rs' : List Record} (hrs : List.Forall₂ sameButValue rs rs') {rest : List Request}
    {s s' t t' : State} (start : Matched s s') (hs : s.AtBoundary)
    (h : s.pending = (rs.flatMap encodeRecord).map byteRequest ++ rest)
    (h' : s'.pending = (rs'.flatMap encodeRecord).map byteRequest ++ rest)
    (ht : Host.Core.run core s.pending.length s = Host.Outcome.next t)
    (ht' : Host.Core.run core s.pending.length s' = Host.Outcome.next t') : Matched t t' ∧ t'.pending = t.pending := by
  have hlength : s.pending.length = s'.pending.length := by
    simp only [h, h', List.length_append, List.length_map, length_bytes_of_sameButValue hrs]
  rw [hlength] at ht'
  refine ⟨?_, (pending_of_run ht').trans (pending_of_run ht).symm⟩
  rw [eq_of_run_records h ht, eq_of_run_records h' ht']
  exact (start.serveRecords hrs hs).serve_all rest

/-- Settles O52: it holds. Each record, and each request after the records, keeps the two states matched. -/
theorem dataValuesNeverReachTheTable : Obligations.DataValuesNeverReachTheTable := by
  intro rs rs' rest s t t' hd hrs h ht ht'
  have start : Matched s { s with pending := (rs'.flatMap encodeRecord).map byteRequest ++ rest } :=
    ⟨.but s.hold s.events _ rfl, fun _ _ => rfl⟩
  obtain ⟨matched, hpending⟩ := start.of_run_records hrs (fun _ => hd) h rfl ht ht'
  obtain ⟨hold, events, pending, hevents⟩ := matched.alike
  obtain rfl : pending = t.pending := hpending
  exact ⟨rfl, hevents⟩

end Sys2Proof.Machine
end

section
/-! O55: the characters of the maps. -/

namespace Sys2Proof.Machine

/-- The full map's character of a count (45_host_interface.md R189; 41_accumulator_scanner.md R156). -/
theorem classChar_cellClass (p : HostParams) (c : Int) :
    classChar p (cellClass c) =
      if 2 ≤ c then 'O' else if c = 1 then 'X' else if c = 0 then '.' else p.negCellChar := by
  unfold cellClass
  split_ifs <;> rfl

/-- The compressed map's character of two counts (45_host_interface.md R188; 41_accumulator_scanner.md R157). -/
theorem classChar_pairClass (p : HostParams) (c0 c1 : Int) :
    classChar p (pairClass c0 c1) =
      if 2 ≤ c0 ∨ 2 ≤ c1 then 'O' else if c0 = 1 ∨ c1 = 1 then 'X' else if c0 = 0 ∧ c1 = 0 then '.'
      else p.negCellChar := by
  unfold pairClass
  split_ifs <;> rfl

/-- A list made index by index has what its function gives at each index below its length. -/
theorem getElem?_map_range {α : Type} (f : Nat → α) {n i : Nat} (h : i < n) :
    ((List.range n).map f)[i]? = some (f i) := by
  rw [List.getElem?_map, List.getElem?_range h]
  rfl

theorem fullChars_getElem? (p : HostParams) (m : Memory) (k : Nat) {j : Nat} (hj : j < 128) :
    (fullChars p m k)[j]? = some
      (if 2 ≤ m.read (128 * k + j) then 'O'
      else if m.read (128 * k + j) = 1 then 'X'
      else if m.read (128 * k + j) = 0 then '.'
      else p.negCellChar) := by
  rw [fullChars, getElem?_map_range _ hj, classChar_cellClass]

/-- Place j of line k of the compressed map is the pair from 256k + 2j. -/
theorem compressedChars_getElem? (p : HostParams) (m : Memory) (k : Nat) {j : Nat} (hj : j < 128) :
    (compressedChars p m k)[j]? = some
      (if 2 ≤ m.read (256 * k + 2 * j) ∨ 2 ≤ m.read (256 * k + 2 * j + 1) then 'O'
      else if m.read (256 * k + 2 * j) = 1 ∨ m.read (256 * k + 2 * j + 1) = 1 then 'X'
      else if m.read (256 * k + 2 * j) = 0 ∧ m.read (256 * k + 2 * j + 1) = 0 then '.'
      else p.negCellChar) := by
  have hindex : 2 * (128 * k + j) = 256 * k + 2 * j := by omega
  rw [compressedChars, getElem?_map_range _ hj, classChar_pairClass, hindex]

/-- Settles O55: it holds. Either map is a list made line by line, and a line's characters place by place. -/
theorem mapsShowTheWholeTable : Obligations.MapsShowTheWholeTable := by
  intro p m
  refine ⟨by simp [fullMap], fun k hk => ?_, by simp [compressedMap], fun k hk => ?_⟩
  · exact ⟨fullChars p m k, getElem?_map_range _ hk, by simp [fullChars], fun j => fullChars_getElem? p m k⟩
  · exact ⟨compressedChars p m k, getElem?_map_range _ hk, by simp [compressedChars],
      fun j => compressedChars_getElem? p m k⟩

end Sys2Proof.Machine
end

section
/-! O56: the digits and the star of a trace line (45_host_interface.md R185). -/

namespace Sys2Proof.Machine

/-! ### The digits -/

theorem octalDigit_of_mem_octal (n : Nat) : ∀ c ∈ octal n, '0' ≤ c ∧ c ≤ '7' := by
  have hdigit : ∀ d < 8, '0' ≤ Nat.digitChar d ∧ Nat.digitChar d ≤ '7' := by decide
  induction n using Nat.strongRecOn with
  | ind n ih =>
    intro c hc
    rcases Nat.lt_or_ge n 8 with hn | hn
    · rw [octal, Nat.toDigits_of_lt_base hn, List.mem_singleton] at hc
      exact hc ▸ hdigit n hn
    · rw [octal, Nat.toDigits_of_base_le (by decide) hn, List.mem_append, List.mem_singleton] at hc
      rcases hc with hc | rfl
      · exact ih (n / 8) (by omega) c hc
      · exact hdigit _ (Nat.mod_lt n (by decide))

/-- Leading zeros add nothing to the number that the digits stand for. -/
theorem printsOctal_padded (w n : Nat) : printsOctal (padded w '0' (octal n)) n := by
  refine ⟨padded_ne_nil (octal_ne_nil n), fun c hc => ?_, ?_⟩
  · rcases List.mem_append.1 hc with hc | hc
    · rw [List.eq_of_mem_replicate hc]; decide
    · exact octalDigit_of_mem_octal n c hc
  · rw [← Nat.ofDigitChars_eq_foldl, padded, Nat.ofDigitChars_append, Nat.ofDigitChars_replicate_zero, Nat.mul_zero]
    exact Nat.ofDigitChars_toDigits (by decide) (by decide)

/-- An address or a value needs at most the 4 digits it is padded to. -/
theorem length_padded_octal_addr (a : Addr) : (padded 4 '0' (octal a.toNat)).length = 4 := by
  have hlen : (octal a.toNat).length ≤ 4 := Nat.toDigits_length 8 a.toNat 4 (by decide) a.isLt
  rw [length_padded, max_eq_left hlen]

/-! ### The texts around the digits -/

theorem literalText_append (t u : String) : literalText (t ++ u) = (literalText t && literalText u) := by
  simp [literalText]

theorem no_digit_of_literalText {t : String} (h : literalText t = true) :
    t.toList.all (fun c => !c.isDigit) = true := by
  rw [literalText, List.all_eq_true] at h
  exact List.all_eq_true.2 fun c hc => (Bool.and_eq_true_iff.1 (h c hc)).2

theorem LineText.ok_iff (t : LineText) :
    t.ok = true ↔ literalText t.before = true ∧ t.before.toList.head? ≠ some '*' ∧ literalText t.after = true := by
  simp [LineText.ok, openingText, and_assoc]

theorem LineText.no_digit_around {t : LineText} (h : t.ok = true) :
    (t.before ++ t.after).toList.all (fun c => !c.isDigit) = true := by
  obtain ⟨hbefore, _, hafter⟩ := t.ok_iff.1 h
  exact no_digit_of_literalText (by rw [literalText_append, hbefore, hafter]; rfl)

/-- A line of one number: its text, the number in octal, and no other digit. -/
theorem LineText.around_octalText {t : LineText} (h : t.ok = true) (w n : Nat) :
    t.around (octalText w n) = t.before ++ String.ofList (padded w '0' (octal n)) ++ t.after ∧
      (t.before ++ t.after).toList.all (fun c => !c.isDigit) = true ∧ printsOctal (padded w '0' (octal n)) n :=
  ⟨rfl, t.no_digit_around h, printsOctal_padded w n⟩

/-! ### The star -/

/-- What comes after a line's first number does not give it a star. -/
theorem LineText.around_octalText_append_head {t : LineText} (h : t.ok = true) (w n : Nat) (rest : String) :
    (t.around (octalText w n ++ rest)).toList.head? ≠ some '*' := by
  obtain ⟨hbefore, hstar, _⟩ := t.ok_iff.1 h
  have hopen : LineText.ok ⟨t.before, ""⟩ = true := (LineText.ok_iff _).2 ⟨hbefore, hstar, rfl⟩
  have hhead := LineText.around_octalText_head hopen w n
  have hne : (LineText.around ⟨t.before, ""⟩ (octalText w n)).toList ≠ [] := by
    simp [padded_ne_nil (octal_ne_nil n)]
  have hline : t.around (octalText w n ++ rest) =
      LineText.around ⟨t.before, ""⟩ (octalText w n) ++ (rest ++ t.after) := by
    simp [LineText.around, String.append_assoc]
  rwa [hline, String.toList_append, List.head?_append_of_ne_nil _ hne]

theorem traceLine_head_star_iff {p : HostParams} (h : p.ok) {e : Event} {line : String}
    (hline : traceLine p e = some line) :
    line.toList.head? = some '*' ↔ ∃ a v, e = .data a v true := by
  obtain ⟨hleader, hfield, hdata, _⟩ := h.texts
  cases e with
  | leader n =>
    obtain rfl := Option.some.inj hline
    exact iff_of_false (LineText.around_octalText_head hleader _ _) (by simp)
  | field f =>
    obtain rfl := Option.some.inj hline
    exact iff_of_false (LineText.around_octalText_head hfield _ _) (by simp)
  | data a v mark =>
    obtain rfl := Option.some.inj hline
    cases mark with
    | true => simp
    | false =>
      have hhead := LineText.around_octalText_append_head hdata 4 a.toNat (p.dataBetween ++ octal4 v.toNat)
      rw [← String.append_assoc] at hhead
      refine iff_of_false ?_ (by simp)
      rwa [if_neg Bool.false_ne_true, String.empty_append]
  | addr a =>
    obtain ⟨t, ht, rfl⟩ := Option.map_eq_some_iff.1 hline
    have hok : t.ok = true := by simpa [ht] using h.addr
    exact iff_of_false (LineText.around_octalText_head hok _ _) (by simp)
  | invalid =>
    have hline : p.invalidText = some line := hline
    have hopen : openingText line = true := by simpa [hline] using h.invalid
    have hhead : line.toList.head? ≠ some '*' := of_decide_eq_true (Bool.and_eq_true_iff.1 hopen).2
    exact iff_of_false hhead (by simp)
  | region => exact absurd hline nofun

/-- Settles O56: it holds. A line is literal text, which has no digit and does not open with the star, around numbers
that are padded octal digits. -/
theorem traceLinesAreOctalAndStarredByTheMark : Obligations.TraceLinesAreOctalAndStarredByTheMark := by
  intro p h
  obtain ⟨hleader, hfield, hdata, hbetween⟩ := h.texts
  refine ⟨fun _ _ => rfl, fun e line => traceLine_head_star_iff h, fun n => ?_, fun f => ?_, fun a line hline => ?_,
    fun a v mark => ?_⟩
  · obtain ⟨hline, hdigits, hoctal⟩ := LineText.around_octalText hleader p.leaderDigits n
    exact ⟨_, _, _, congrArg some hline, hdigits, hoctal⟩
  · obtain ⟨hline, hdigits, hoctal⟩ := LineText.around_octalText hfield p.fieldDigits f.toNat
    exact ⟨_, _, _, congrArg some hline, hdigits, hoctal⟩
  · obtain ⟨t, ht, rfl⟩ := Option.map_eq_some_iff.1 hline
    have hok : t.ok = true := by simpa [ht] using h.addr
    obtain ⟨hline, hdigits, hoctal⟩ := LineText.around_octalText hok 4 a.toNat
    exact ⟨_, _, _, hline, hdigits, length_padded_octal_addr a, hoctal⟩
  · obtain ⟨hbefore, _, hafter⟩ := p.dataText.ok_iff.1 hdata
    refine ⟨p.dataText.before, p.dataBetween, p.dataText.after, padded 4 '0' (octal a.toNat),
      padded 4 '0' (octal v.toNat), ?_, ?_, length_padded_octal_addr a, length_padded_octal_addr v,
      printsOctal_padded 4 _, printsOctal_padded 4 _⟩
    · simp [traceLine, LineText.around, octal4, octalText, String.append_assoc]
    · exact no_digit_of_literalText (by rw [literalText_append, literalText_append, hbefore, hbetween, hafter]; rfl)

end Sys2Proof.Machine
end

section
/-! What a run from RESET to its end can be: the events before its SCAN are decode events, and a completed run is one
such run and the scan of the table it leaves (45_host_interface.md R193; 40_record_decoder.md R130). -/

namespace Sys2Proof.Machine

/-! ### Events before the SCAN -/

/-- `t` has sent what `s` has, and after it only decode events: no REGION. -/
def DecodesOnly (s t : State) : Prop := ∃ es, t.events = s.events ++ es ∧ ∀ a b, .region a b ∉ es

theorem region_not_mem_leaderReport (n : Nat) (a b : Addr) : .region a b ∉ leaderReport n := by
  rcases leaderReport_cases n with h | ⟨_, h⟩ <;> simp [h]

namespace DecodesOnly

variable {s t u : State}

theorem of_same_events (h : t.events = s.events) : DecodesOnly s t := ⟨[], by rw [h, List.append_nil], by simp⟩

theorem trans (h : DecodesOnly s t) (h' : DecodesOnly t u) : DecodesOnly s u := by
  obtain ⟨es, hes, hno⟩ := h
  obtain ⟨es', hes', hno'⟩ := h'
  refine ⟨es ++ es', by rw [hes', hes, List.append_assoc], fun a b hmem => ?_⟩
  exact (List.mem_append.1 hmem).elim (hno a b) (hno' a b)

/-- A flush sends the leader's report at most. -/
theorem of_flush (h : t.events = s.events ++ leaderReport s.lcnt) : DecodesOnly s t :=
  ⟨_, h, region_not_mem_leaderReport s.lcnt⟩

theorem of_sent {e : Event} (h : t.events = s.events ++ [e]) (he : ∀ a b, e ≠ .region a b) : DecodesOnly s t :=
  ⟨[e], h, fun a b hmem => he a b (List.mem_singleton.1 hmem).symm⟩

theorem firstByte (s : State) (b : Byte) : DecodesOnly s (s.firstByte b) := by
  rcases s.firstByte_cases b with ⟨_, h⟩ | ⟨_, _, h⟩ | ⟨_, _, h⟩ | ⟨_, _, h⟩ | ⟨_, _, h⟩ <;> rw [h]
  · exact of_same_events rfl
  · exact (of_flush (t := s.flushLeader) (by rw [State.flushLeader_eq])).trans (of_sent rfl nofun)
  · exact (of_flush (t := s.flushLeader) (by rw [State.flushLeader_eq])).trans (of_sent rfl nofun)
  · exact of_flush (by rw [State.addrHigh_eq])
  · exact of_flush (by rw [State.dataHigh_eq])

theorem takeByte (s : State) (b : Byte) : DecodesOnly s (s.takeByte b) := by
  rcases s.takeByte_cases b with ⟨_, h⟩ | ⟨_, h⟩ | ⟨_, _, h⟩ | ⟨_, _, h⟩ <;> rw [h]
  · exact firstByte s b
  · exact of_sent rfl nofun
  · exact of_sent rfl nofun
  · exact of_same_events rfl

theorem endStream (s : State) : DecodesOnly s s.endStream := by
  rcases s.endStream_cases with ⟨_, h⟩ | ⟨_, h⟩ | ⟨_, _, h⟩ | ⟨_, _, _, _, _, h⟩ | ⟨_, _, _, _, h⟩ <;> rw [h]
  · exact of_same_events rfl
  · exact of_same_events rfl
  · exact of_flush rfl
  · exact of_flush rfl
  · exact of_flush rfl

end DecodesOnly

/-- Only SCAN in DONE sends REGION events (41_accumulator_scanner.md R152). -/
theorem Effect.decodesOnly {s t : State} {i : Instr} (h : Effect s i t) (hscan : ¬(s.phase = .done ∧ i = .scan)) :
    DecodesOnly s t := by
  cases h with
  | ignored | command | reset | read => exact .of_same_events rfl
  | byte _ b => exact .takeByte s b
  | finish => exact .endStream s
  | scan hp => exact absurd ⟨hp, rfl⟩ hscan

/-- Only SCAN requests decode to SCAN, in every phase and sub-state: by O2 the instruction is written as its request. -/
theorem isScan_of_decode_eq_scan {p : Phase} {d : DState} {r : Request} (h : decode p d r = .scan) :
    isScan r = true := by
  obtain ⟨_, _, henc⟩ := decodingIsTotalAndWrittenBack p d r
  rw [h, encode, scanRequest] at henc
  cases r with
  | op code b => exact decide_eq_true (Request.op.inj henc).1.symm
  | rst | count _ | cell _ | pair _ | reg _ => exact absurd henc nofun

/-! ### The course of a run -/

theorem carryOut_of_isScan {s : State} {r : Request} (hp : s.phase = .done) (hr : isScan r = true) :
    s.carryOut r = s.scanTable := by
  cases r with
  | op code b =>
    obtain rfl : code = 0b10#2 := of_decide_eq_true hr
    exact State.gate_legal hp (by decide) 0b10#2 _
  | rst | count _ | cell _ | pair _ | reg _ => exact absurd hr nofun

/-- `t` is a state of the run that RESET starts in `s`, before its SCAN in DONE. -/
structure BeforeScan (s t : State) : Prop where
  invariant : t.Invariant
  decodesOnly : DecodesOnly s t

theorem BeforeScan.resetBlock (s : State) : BeforeScan s s.resetBlock where
  invariant := .resetBlock s
  decodesOnly := .of_same_events rfl

theorem BeforeScan.after_step {s t u : State} {r : Request} {rest : List Request} (h : BeforeScan s t)
    (hp : t.pending = r :: rest) (hscan : ¬(t.phase = .done ∧ isScan r = true)) (hstep : step t = .next u) :
    BeforeScan s u where
  invariant := stepKeepsTheInvariants t u h.invariant hstep
  decodesOnly := by
    rw [step_of_pending hp] at hstep
    obtain rfl := Host.Outcome.next.inj hstep
    have heffect := effect_of_exec (exec_decode { t with pending := rest } r)
    have hsent := heffect.decodesOnly fun ⟨hdone, hi⟩ => hscan ⟨hdone, isScan_of_decode_eq_scan hi⟩
    exact h.decodesOnly.trans hsent

/-- What a run that RESET starts in `s` can have come to. `BeforeScan.runEnding` ties it to the model. -/
inductive RunEnding (s : State) : RunEnd → State → Prop where
  /-- neither end is reached -/
  | notEnded (t : State) : RunEnding s .notEnded t
  /-- the SCAN of a state whose run has sent decode events only -/
  | completed {t : State} : DecodesOnly s t → RunEnding s .completed t.scanTable
  /-- fault entry before the SCAN -/
  | faulted {t : State} : BeforeScan s t → t.phase = .fault → RunEnding s .faulted t

theorem BeforeScan.runEnding {s t : State} (h : BeforeScan s t) (k : Nat) :
    RunEnding s (runToEnd k t).1 (runToEnd k t).2 := by
  induction k generalizing t with
  | zero => exact .notEnded t
  | succ k ih =>
    cases hp : t.pending with
    | nil => rw [runToEnd_of_nothing_pending hp]; exact .notEnded t
    | cons r rest =>
      cases hr : isReset r with
      | true =>
        obtain rfl := isReset_iff.1 hr
        rw [runToEnd_reset hp]
        exact .notEnded t
      | false =>
        have hstep := step_of_pending hp
        rw [runToEnd_succ hp hr hstep]
        split_ifs with hscan hfault
        · rw [carryOut_of_isScan (s := { t with pending := rest }) hscan.1 hscan.2]
          exact .completed (h.decodesOnly.trans (.of_same_events rfl))
        · exact .faulted (h.after_step hp hscan hstep) hfault
        · exact ih (h.after_step hp hscan hstep)

theorem runEnding_of_runToEnd {s t : State} {e : RunEnd} {k : Nat} (h : runToEnd k s.resetBlock = (e, t)) :
    RunEnding s e t := by
  have hend := (BeforeScan.resetBlock s).runEnding k
  rwa [h] at hend

/-- A run completes only by a SCAN among its requests. -/
theorem exists_isScan_of_completed {s t : State} {k : Nat} (h : runToEnd k s = (.completed, t)) :
    ∃ r ∈ s.pending.take k, isScan r = true := by
  induction k generalizing s with
  | zero => exact absurd h nofun
  | succ k ih =>
    cases hp : s.pending with
    | nil => rw [runToEnd_of_nothing_pending hp] at h; exact absurd h nofun
    | cons r rest =>
      cases hr : isReset r with
      | true =>
        obtain rfl := isReset_iff.1 hr
        rw [runToEnd_reset hp] at h
        exact absurd h nofun
      | false =>
        obtain ⟨u, hstep, hu⟩ := step_takes_request hp
        rw [runToEnd_succ hp hr hstep] at h
        split_ifs at h with hscan hfault
        · exact ⟨r, List.mem_cons_self, hscan.2⟩
        · exact absurd h nofun
        · obtain ⟨r', hmem, hr'⟩ := ih h
          exact ⟨r', List.mem_cons_of_mem r (hu ▸ hmem), hr'⟩

end Sys2Proof.Machine
end

section
/-! O54, O57, O58: the host's report at each end of a run. -/

namespace Sys2Proof.Machine

/-- OVL is the number of the scan's regions, which 12 bits hold. -/
theorem State.scanTable_ovl_toNat (s : State) : s.scanTable.ovl.toNat = (scanRegions s.ut).length := by
  have hle := length_scanRegions_le s.ut
  rw [State.scanTable_ovl, BitVec.toNat_ofNat, Nat.mod_eq_of_lt (by omega)]

/-- The report of a run is of the events after its start. -/
theorem hostReport_completed_of_events {p : HostParams} {o : HostOptions} {k : Nat} {s t : State} {es : List Event}
    (h : runToEnd k s.resetBlock = (.completed, t)) (hes : t.events = s.events ++ es) :
    hostReport p o k s = some (completedReport p o es t) := by
  rw [hostReport_completed h, hes, List.drop_left]

theorem hostReport_faulted_of_events {p : HostParams} {o : HostOptions} {k : Nat} {s t : State} {es : List Event}
    (h : runToEnd k s.resetBlock = (.faulted, t)) (hes : t.events = s.events ++ es) :
    hostReport p o k s = some (faultedReport p o es t) := by
  rw [hostReport_faulted h, hes, List.drop_left]

/-- RESULT_MAP of a completed run's OVL is no failure (45_host_interface.md R191). -/
theorem code_of_completed_ne_failCode {p : HostParams} (hp : p.ok) {o : HostOptions} {k : Nat} {s t : State}
    {r : HostReport} (h : runToEnd k s.resetBlock = (.completed, t)) (hr : hostReport p o k s = some r) :
    r.code ≠ p.failCode := by
  obtain rfl := Option.some.inj ((hostReport_completed h).symm.trans hr)
  cases runEnding_of_runToEnd h with
  | completed =>
    refine hp.distinct _ ?_
    rw [State.scanTable_ovl_toNat]
    exact length_scanRegions_le _

/-- Settles O54: it holds. A faulted run has a fault code by the invariants, so a message, and OVL of a completed run is
at most 2048. -/
theorem faultedRunReportsNoCount : Obligations.FaultedRunReportsNoCount := by
  intro p o k s t hp h
  cases runEnding_of_runToEnd h with
  | faulted hrun hfault =>
    obtain ⟨es, hes, _⟩ := hrun.decodesOnly
    have hcode : t.fcode ≠ .none := fun hnone => hrun.invariant.no_code_iff_no_fault.1 hnone hfault
    exact ⟨⟨es, hes, hostReport_faulted_of_events h hes⟩, hp.message _ _ hcode, hp.failure,
      fun _ _ _ _ _ => code_of_completed_ne_failCode hp⟩

/-- Settles O57: it holds. Without a SCAN a run does not complete, and so has no report or that of its fault. -/
theorem noResultIsReportedBeforeTheScan : Obligations.NoResultIsReportedBeforeTheScan := by
  intro p o k s hno
  rcases h : runToEnd k s.resetBlock with ⟨_ | _ | _, t⟩
  · exact .inl (hostReport_notEnded h)
  · obtain ⟨r, hmem, hr⟩ := exists_isScan_of_completed h
    exact absurd ((hno r hmem).symm.trans hr) nofun
  · cases runEnding_of_runToEnd h with
    | faulted _ hfault =>
      exact .inr ⟨t, rfl, hfault, fun r hr => Option.some.inj ((hostReport_faulted h).symm.trans hr) ▸ rfl⟩

/-! ### The lines of a completed run -/

/-- The regions of a table, each by its first and its last address. -/
def addrRegions (m : Memory) : List (Addr × Addr) :=
  (scanRegions m).map fun r => (BitVec.ofNat 12 r.1, BitVec.ofNat 12 r.2)

@[simp] theorem length_addrRegions (m : Memory) : (addrRegions m).length = (scanRegions m).length := List.length_map _

theorem State.scanTable_events_addrRegions (s : State) :
    s.scanTable.events = s.events ++ (addrRegions s.ut).map fun r => .region r.1 r.2 := by
  rw [State.scanTable_events, addrRegions, List.map_map]
  rfl

/-- REGION events have no trace line (45_host_interface.md R185). -/
theorem traceLines_append_regions (p : HostParams) (o : HostOptions) (es : List Event) (rs : List (Addr × Addr)) :
    traceLines p o (es ++ rs.map fun r => .region r.1 r.2) =
      if o.verboseTrace then es.filterMap (traceLine p) else [] := by
  have hregions : (rs.map fun r => Event.region r.1 r.2).filterMap (traceLine p) = [] := by
    rw [List.filterMap_map]
    exact List.filterMap_eq_nil_iff.2 fun _ _ => rfl
  rw [traceLines, List.filterMap_append, hregions, List.append_nil]

theorem regionLine_eq_none {p : HostParams} {e : Event} (h : ∀ a b, e ≠ .region a b) : regionLine p e = none := by
  cases e with
  | region a b => exact absurd rfl (h a b)
  | leader | field | addr | data | invalid => rfl

/-- Decode events have no region line, and every REGION event has one (45_host_interface.md R186). -/
theorem regionLines_append_regions (p : HostParams) (o : HostOptions) {es : List Event} (hes : ∀ a b, .region a b ∉ es)
    (rs : List (Addr × Addr)) :
    regionLines p o (es ++ rs.map fun r => .region r.1 r.2) =
      if o.silentReport then []
      else rs.map fun r =>
        "Overlap in area " ++ octalText p.regionDigits r.1.toNat ++ " to " ++ octalText p.regionDigits r.2.toNat := by
  have hdecode : es.filterMap (regionLine p) = [] :=
    List.filterMap_eq_nil_iff.2 fun e he => regionLine_eq_none fun a b heq => hes a b (heq ▸ he)
  rw [regionLines, List.filterMap_append, hdecode, List.nil_append, List.filterMap_map]
  exact congrArg _ (congrFun List.filterMap_eq_map rs)

/-- The lines of the map that the host selects, without the blank line. `mapLines_of_regions` ties it to the model. -/
def selectedMap (p : HostParams) (o : HostOptions) (m : Memory) : List String :=
  match o.mapMode with
  | .none => []
  | .compressed => compressedMap p m
  | .full => fullMap p m

/-- The blank line and the map, where OVL counts the regions `rs` (45_host_interface.md R187 to R189). -/
theorem mapLines_of_regions (p : HostParams) (o : HostOptions) {s : State} {rs : List (Addr × Addr)}
    (h : s.ovl.toNat = rs.length) :
    mapLines p o s =
      (if o.mapMode ≠ .none ∧ rs ≠ [] ∧ o.silentReport = false then [""] else []) ++ selectedMap p o s.ut := by
  have hsome : 0 < s.ovl.toNat ↔ rs ≠ [] := by rw [h, List.length_pos_iff]
  cases hmode : o.mapMode <;> simp [mapLines, selectedMap, hmode, hsome]

/-- Settles O58: it holds. The run's own events are decode events, which print the trace, and the scan's are the
regions, which OVL counts. -/
theorem completedRunIsReportedWhole : Obligations.CompletedRunIsReportedWhole := by
  intro p o k s t hp h
  cases runEnding_of_runToEnd h with
  | @completed u hdecodes =>
    obtain ⟨es, hes, hno⟩ := hdecodes
    have hevents : u.scanTable.events = s.events ++ (es ++ (addrRegions u.ut).map fun r => .region r.1 r.2) := by
      rw [State.scanTable_events_addrRegions, hes, List.append_assoc]
    have hovl : u.scanTable.ovl.toNat = (addrRegions u.ut).length := by
      rw [State.scanTable_ovl_toNat, length_addrRegions]
    refine ⟨es, addrRegions u.ut, by rw [hevents, List.append_assoc], hno, hovl, fun hnil => ?_, ?_⟩
    · have hzero : u.scanTable.ovl = 0#12 := BitVec.eq_of_toNat_eq (by rw [hovl, hnil]; rfl)
      rw [hzero, hp.no_overlap]
    · rw [hostReport_completed_of_events h hevents, completedReport, traceLines_append_regions,
        regionLines_append_regions p o hno, mapLines_of_regions p o hovl, ← List.append_assoc]
      rfl

end Sys2Proof.Machine
end

section
/-! O21 to O23: FAULT is left by RESET alone, and fault entry is precise (60_exceptions.md R204, R205). -/

namespace Sys2Proof.Machine

/-- An operation in FAULT is ignored (60_exceptions.md R205). -/
theorem next_gate_of_fault {s : State} (hp : s.phase = .fault) (legal : Option Phase) (op : BitVec 2)
    (body : State → State) : (Host.Outcome.next (s.gate legal op body) : Result) = .next s :=
  congrArg Host.Outcome.next (State.gate_fault hp legal op body)

/-- Settles O21: it holds. Every operation is behind the phase check, which ignores it; a read port answers, and RESET
puts the block back to DECODE. -/
theorem faultStateIsTerminal : Obligations.FaultStateIsTerminal := by
  intro i s hp
  cases i with
  | leader | field _ _ | invalid _ | addr _ | addrB2 _ _ | data _ | dataB2 _ _ | byte _ | endOp | scan | reservedOp =>
    exact ⟨fun _ => ⟨s.readOut, next_gate_of_fault hp _ _ _, fun _ _ _ _ => rfl⟩, nofun⟩
  | reset => exact ⟨fun h => absurd rfl h, fun _ => ⟨s.resetBlock, rfl, rfl, rfl⟩⟩
  | count a => exact ⟨fun _ => ⟨_, rfl, fun h _ _ _ => absurd rfl (h a)⟩, nofun⟩
  | cell a => exact ⟨fun _ => ⟨_, rfl, fun _ h _ _ => absurd rfl (h a)⟩, nofun⟩
  | pair j => exact ⟨fun _ => ⟨_, rfl, fun _ _ h _ => absurd rfl (h j)⟩, nofun⟩
  | reg n => exact ⟨fun _ => ⟨_, rfl, fun _ _ _ h => absurd rfl (h n)⟩, nofun⟩

/-- Settles O22: it holds. Of all that an instruction can do, only fault entry itself and the correction of END outside
the table lead from another phase into FAULT. -/
theorem faultEntryIsPrecise : Obligations.FaultEntryIsPrecise := by
  intro i s t hs ht hfault
  cases effect_of_exec ht with
  | ignored _ hp => exact absurd hp hs
  | command => exact ⟨nofun, .inl rfl⟩
  | byte _ b =>
    rcases s.takeByte_cases b with ⟨_, h⟩ | ⟨_, h⟩ | ⟨_, _, h⟩ | ⟨_, _, h⟩ <;> rw [h] at hfault ⊢
    · exact absurd ((s.firstByte_phase b).symm.trans hfault) hs
    · exact absurd hfault hs
    · exact absurd hfault hs
    · exact ⟨nofun, .inl rfl⟩
  | finish =>
    rcases s.endStream_cases with ⟨_, h⟩ | ⟨_, h⟩ | ⟨_, _, h⟩ | ⟨_, _, _, _, _, h⟩ | ⟨_, hck, _, _, h⟩ <;>
      rw [h] at hfault ⊢
    · exact ⟨nofun, .inl rfl⟩
    · exact ⟨nofun, .inl rfl⟩
    · exact absurd hfault nofun
    · exact absurd hfault nofun
    · exact ⟨nofun, .inr ⟨rfl, rfl, hck, rfl⟩⟩
  | scan => exact absurd hfault hs
  | reset => exact absurd hfault nofun
  | read => exact absurd hfault hs

/-- Only a RESET request decodes to RESET, since every decoding is written back as its request (O2). -/
theorem isReset_of_decode_eq_reset {p : Phase} {d : DState} {r : Request} (h : decode p d r = .reset) :
    isReset r = true := by
  obtain ⟨_, _, henc⟩ := decodingIsTotalAndWrittenBack p d r
  rw [h, encode] at henc
  cases r with
  | rst => rfl
  | op _ _ | count _ | cell _ | pair _ | reg _ => exact absurd henc nofun

/-- A step in FAULT without a RESET asked takes its request and writes nothing else but a read's answer. -/
theorem step_of_fault {s : State} (hp : s.phase = .fault) (hreset : ∀ r ∈ s.pending, isReset r = false) :
    ∃ v, step s = .next { s with pending := s.pending.drop 1, readOut := v } := by
  cases h : s.pending with
  | nil => exact ⟨s.readOut, by rw [step_of_nothing_pending h, List.drop_nil, ← h]⟩
  | cons r rest =>
    have hr : isReset r = false := hreset r (by rw [h]; exact List.mem_cons_self)
    have hdecode : decode s.phase s.dstate r ≠ .reset := fun hd =>
      absurd (hr.symm.trans (isReset_of_decode_eq_reset hd)) nofun
    obtain ⟨v, hv, -⟩ := (faultStateIsTerminal _ { s with pending := rest } hp).1 hdecode
    exact ⟨v, (stepRunsDecodedInstruction.2 s r rest h).trans hv⟩

/-- Settles O23: it holds, by induction on the number of steps; the state after a step in FAULT is again one in FAULT
with no RESET asked. -/
theorem firstFaultIsKept : Obligations.FirstFaultIsKept := by
  intro k
  induction k with
  | zero => exact fun s _ _ => ⟨s, rfl, rfl⟩
  | succ k ih =>
    intro s hp hreset
    obtain ⟨v, hstep⟩ := step_of_fault hp hreset
    obtain ⟨t, hrun, ht⟩ := ih { s with pending := s.pending.drop 1, readOut := v } hp
      fun r hr => hreset r (List.mem_of_mem_drop hr)
    refine ⟨t, (run_succ hstep k).trans hrun, ht.trans ?_⟩
    rw [List.drop_drop, Nat.add_comm]

end Sys2Proof.Machine
end

section
/-! O7, O19, O27, O37: the idle step, the command faults, END inside a record, and the fault output
(60_exceptions.md R201, R203, R209, R211). -/

namespace Sys2Proof.Machine

/-- Settles O7: it holds, by the law of the idle step. -/
theorem stepWithNothingAskedIsIdle : Obligations.StepWithNothingAskedIsIdle :=
  fun _ h => step_of_nothing_pending h

/-! ### Commands in a phase that does not allow them -/

/-- An operation that only another phase allows takes the command fault (60_exceptions.md R203). -/
theorem next_gate_of_other_phase {s : State} {p q : Phase} (hp : s.phase = p) (hf : p ≠ .fault) (hq : q ≠ p)
    (op : BitVec 2) (body : State → State) :
    (Host.Outcome.next (s.gate (some q) op body) : Result) = .next (s.raise .cmd (commandInfo op p)) := by
  subst hp
  exact congrArg Host.Outcome.next (State.gate_illegal hf (fun h => hq (Option.some.inj h)) op body)

theorem exec_byte_of_done {s : State} (hp : s.phase = .done) (b : Byte) :
    exec (.byte b) s = .next (s.raise .cmd 0x0010#16) :=
  next_gate_of_other_phase hp (by decide) (by decide) _ _

/-- Settles O19: it holds. In each case the phase check raises CMD, and a record instruction acts as some byte. -/
theorem commandFaults : Obligations.CommandFaults := by
  intro s
  refine ⟨fun hp => ⟨exec_byte_of_done hp, ?_, ?_, ?_⟩, fun hp => ⟨?_, ?_⟩⟩
  · rintro i ⟨b, henc⟩
    obtain ⟨-, b', -, hexec, -⟩ := exec_of_isByte (by rw [henc]; rfl) s
    exact hexec.trans (exec_byte_of_done hp b')
  · exact next_gate_of_other_phase hp (by decide) (by decide) _ _
  · rw [exec_reservedOp_of_ne_fault (by rw [hp]; decide), hp]; rfl
  · exact next_gate_of_other_phase hp (by decide) (by decide) _ _
  · rw [exec_reservedOp_of_ne_fault (by rw [hp]; decide), hp]; rfl

/-! ### END inside a record -/

theorem State.endStream_waitAddr {s : State} (h : s.dstate = .waitAddr) :
    s.endStream = s.raise .trunc (firstByteInfo 0b01#2 s.hold) := by
  simp [State.endStream, h]

theorem State.endStream_waitData {s : State} (h : s.dstate = .waitData) :
    s.endStream = s.raise .trunc (firstByteInfo 0b00#2 s.hold) := by
  simp [State.endStream, h]

/-- FINFO of a truncated record is its first byte as a number (60_exceptions.md R201). -/
theorem firstByteInfo_eq_ofNat (t : BitVec 2) (hold : Half) :
    firstByteInfo t hold = BitVec.ofNat 16 (0x40 * t.toNat + hold.toNat) := by
  revert t hold; decide

/-- Settles O27: it holds. The truncation check comes before all else that END does. -/
theorem endInsideARecordRaisesTrunc : Obligations.EndInsideARecordRaisesTrunc := by
  intro s hp
  refine ⟨fun hd => ?_, fun hd => ?_⟩
  · rw [exec_endOp_of_decode hp, State.endStream_waitAddr hd, firstByteInfo_eq_ofNat]; rfl
  · rw [exec_endOp_of_decode hp, State.endStream_waitData hd, firstByteInfo_eq_ofNat]; simp [State.raise]

/-! ### The fault output -/

theorem faultOutput_iff (s : State) : faultOutput s = true ↔ s.fcode ≠ .none := decide_eq_true_iff

/-- Settles O37: it holds, by invariant (d) of 10_state.md R46. -/
theorem faultOutputShowsTheFaultPhase : Obligations.FaultOutputShowsTheFaultPhase := by
  intro s h
  rw [faultOutput_iff, Ne, h.no_code_iff_no_fault, not_not]

end Sys2Proof.Machine
end

section
/-! O31: RESET (70_reset_and_hazards.md R230, R231). -/

namespace Sys2Proof.Machine

/-- Settles O31: it holds. RESET leaves the block as `State.resetBlock` writes it, with the empty table. -/
theorem resetPutsEveryElementAtItsResetValue : Obligations.ResetPutsEveryElementAtItsResetValue :=
  fun s => ⟨s.resetBlock, rfl, rfl, Memory.read_nil⟩

end Sys2Proof.Machine
end

section
/-! O53: the boot order ends every run (70_reset_and_hazards.md R233; 45_host_interface.md R193). -/

namespace Sys2Proof.Machine

/-! ### The faults that a byte and END can raise -/

/-- A byte in DECODE keeps PHASE and FCODE, or a DataWrite past the table raises RANGE (60_exceptions.md R202). -/
theorem State.takeByte_keeps_phase_or_range (s : State) (b : Byte) :
    ((s.takeByte b).phase = s.phase ∧ (s.takeByte b).fcode = s.fcode) ∨
    ((s.takeByte b).phase = .fault ∧ (s.takeByte b).fcode = .range) := by
  rcases s.takeByte_cases b with ⟨_, h⟩ | ⟨_, h⟩ | ⟨_, _, h⟩ | ⟨_, _, h⟩ <;> rw [h]
  · exact .inl ⟨s.firstByte_phase b, s.firstByte_fcode b⟩
  · exact .inl ⟨rfl, rfl⟩
  · exact .inl ⟨rfl, rfl⟩
  · exact .inr ⟨rfl, rfl⟩

/-- END in DECODE leads to DONE and keeps FCODE, or raises TRUNC or RANGE (60_exceptions.md R201, R202). -/
theorem State.endStream_done_or_fault (s : State) :
    (s.endStream.phase = .done ∧ s.endStream.fcode = s.fcode) ∨
    (s.endStream.phase = .fault ∧ (s.endStream.fcode = .trunc ∨ s.endStream.fcode = .range)) := by
  rcases s.endStream_cases with ⟨_, h⟩ | ⟨_, h⟩ | ⟨_, _, h⟩ | ⟨_, _, _, _, _, h⟩ | ⟨_, _, _, _, h⟩ <;> rw [h]
  · exact .inr ⟨rfl, .inl rfl⟩
  · exact .inr ⟨rfl, .inl rfl⟩
  · exact .inl ⟨rfl, rfl⟩
  · exact .inl ⟨rfl, rfl⟩
  · exact .inr ⟨rfl, .inr rfl⟩

/-! ### The run, one request at a time -/

/-- END asked in DECODE is carried out. -/
theorem step_endRequest {s : State} {rest : List Request} (hp : s.phase = .decode)
    (h : s.pending = endRequest :: rest) : step s = .next { s with pending := rest }.endStream := by
  rw [step_of_pending h, State.carryOut_endRequest]
  exact congrArg Host.Outcome.next (State.gate_legal (s := { s with pending := rest }) hp (by decide) 0b01#2 _)

/-- A request other than RESET that finds DECODE ends the run only by fault entry: a SCAN there is no end. -/
theorem runToEnd_succ_of_decode {s t : State} {r : Request} {rest : List Request} (hp : s.phase = .decode)
    (h : s.pending = r :: rest) (hr : isReset r = false) (hstep : step s = .next t) (k : Nat) :
    runToEnd (k + 1) s = if t.phase = .fault then (.faulted, t) else runToEnd k t := by
  rw [runToEnd_succ h hr hstep, hp, if_neg (fun hdone => absurd hdone.1 nofun)]

/-- The first SCAN in DONE completes the run. -/
theorem runToEnd_scanRequest {s : State} {rest : List Request} (hp : s.phase = .done)
    (h : s.pending = scanRequest :: rest) (k : Nat) :
    runToEnd (k + 1) s = (.completed, { s with pending := rest }.scanTable) := by
  rw [runToEnd_succ h rfl (step_scanRequest hp h), if_pos ⟨hp, rfl⟩]

/-- The ends that the boot order leads to: DONE without a fault, or a fault that is no command fault. -/
inductive EndedInOrder : RunEnd × State → Prop where
  /-- the SCAN in DONE -/
  | completed {t : State} : t.phase = .done → t.fcode = .none → EndedInOrder (.completed, t)
  /-- fault entry with TRUNC or RANGE -/
  | faulted {t : State} : t.phase = .fault → t.fcode = .trunc ∨ t.fcode = .range → EndedInOrder (.faulted, t)

/-- END and SCAN end a run that has come to them without a fault. -/
theorem runToEnd_endRequest_ended {s : State} {rest : List Request} (hp : s.phase = .decode) (hf : s.fcode = .none)
    (h : s.pending = endRequest :: scanRequest :: rest) : EndedInOrder (runToEnd 2 s) := by
  rw [runToEnd_succ_of_decode hp h rfl (step_endRequest hp h)]
  rcases State.endStream_done_or_fault { s with pending := scanRequest :: rest } with ⟨hdone, hcode⟩ | ⟨hfault, hcode⟩
  · rw [if_neg (by rw [hdone]; decide), runToEnd_scanRequest hdone (State.endStream_pending _)]
    exact .completed hdone (hcode.trans hf)
  · rw [if_pos hfault]
    exact .faulted hfault hcode

/-- Every byte keeps the run in DECODE without a fault, or ends it by RANGE; after the bytes END and SCAN end it. -/
theorem runToEnd_bytes_ended (bs : List Byte) {s : State} {rest : List Request} (hp : s.phase = .decode)
    (hf : s.fcode = .none) (h : s.pending = bs.map byteRequest ++ endRequest :: scanRequest :: rest) :
    EndedInOrder (runToEnd (bs.length + 2) s) := by
  induction bs generalizing s with
  | nil => exact runToEnd_endRequest_ended hp hf h
  | cons b bs ih =>
    rw [List.map_cons, List.cons_append] at h
    rw [List.length_cons, Nat.add_right_comm, runToEnd_succ_of_decode hp h rfl (step_takeByte hp h)]
    have hbyte := State.takeByte_keeps_phase_or_range
      { s with pending := bs.map byteRequest ++ endRequest :: scanRequest :: rest } b
    rcases hbyte with ⟨hphase, hcode⟩ | ⟨hfault, hcode⟩
    · have hdecode := hphase.trans hp
      rw [if_neg (by rw [hdecode]; decide)]
      exact ih hdecode (hcode.trans hf) (State.takeByte_pending _ b)
    · rw [if_pos hfault]
      exact .faulted hfault (.inr hcode)

/-- Settles O53: it holds. The reset state is in DECODE without a fault, from where the boot order ends the run. -/
theorem bootOrderEndsTheRun : Obligations.BootOrderEndsTheRun := by
  intro bs rest s hreset h
  have hended := runToEnd_bytes_ended bs hreset.phase hreset.fcode h
  generalize runToEnd (bs.length + 2) s = ended at hended ⊢
  cases hended with
  | completed hdone hcode => exact .inl ⟨_, rfl, hdone, hcode⟩
  | faulted hfault hcode => exact .inr ⟨_, rfl, hfault, hcode⟩

end Sys2Proof.Machine
end
